-- ==== Sys2Proof/Word.lean ====
section
/-! DEFINITION. The word types of the block (00_scope.md R8, R11) and the index of a general-purpose register (10_state.md R20). -/

namespace Sys2Proof

/-- A `Word` is a 32-bit bit pattern (R11). -/
abbrev Word := BitVec 32

/-- The width of the HI:LO pair read as one quantity (R8, R24). -/
abbrev DWord := BitVec 64

/-- One byte of an integrator's instruction memory; the block itself never sees bytes (R41). -/
abbrev Byte := BitVec 8

/-- "indexed 0–31, index is the authoritative register identity" (R20). The range check of R23 stands at the boundary that
produces an index (Machine/Commands.lean), as R23 allows. -/
abbrev Reg := Fin 32

/-- The shift amount of the extension shifts, 0 to 31 (R81, R200). -/
abbrev ShiftAmount := Fin 32

end Sys2Proof
end

