-- ==== Sys2Proof/Config.lean ====
section
/-! DEFINITION. The parameters of the block (00_scope.md R9) and the initial contents its driver chooses (`P_INIT`, 10_state.md R34).
Every parameter is plain data and stands in `State.params`, so that one step function serves every choice of them (log 4). -/

namespace Sys2Proof

/-- `P_MUL_SECOND`: second multiplicand of MUL (R140). -/
inductive MulSecond where
  | rd
  | rt
deriving DecidableEq, Repr

/-- `P_MUL_WIDTH`: number of low product bits MUL keeps (R140). -/
inductive MulWidth where
  | low16
  | low32
deriving DecidableEq, Repr

/-- `P_DIV_PLACE`, `P_DIVU_PLACE`: where the quotient and the remainder go (R170). -/
inductive Place where
  /-- `LO <- q; HI <- r` -/
  | qloRhi
  /-- `HI <- q; LO <- r` -/
  | qhiRlo
deriving DecidableEq, Repr

/-- `P_DIV_OVF`: DIV of 0x80000000 by 0xFFFFFFFF (R173). -/
inductive DivOvf where
  | fault
  | wrap
deriving DecidableEq, Repr

/-- Values of `P_FETCH_ENDIAN`, the byte order of an integrator's instruction fetch (R41). -/
inductive ByteOrder where
  | little
  | big
deriving DecidableEq, Repr

/-- The parameters of R9, but for `P_INIT`. -/
structure Params where
  /-- `P_LO_MASK16` -/
  loMask16 : Bool
  /-- `P_MUL_SECOND` -/
  mulSecond : MulSecond
  /-- `P_MUL_WIDTH` -/
  mulWidth : MulWidth
  /-- `P_DIV_PLACE` -/
  divPlace : Place
  /-- `P_DIVU_PLACE` -/
  divuPlace : Place
  /-- `P_DIV_OVF` -/
  divOvf : DivOvf
  /-- `P_EXT_SUB` -/
  extSub : Bool
  /-- `P_EXT_SHIFT` -/
  extShift : Bool
  /-- `P_FETCH_ENDIAN`; `none` is the spec's OPEN -/
  fetchEndian : Option ByteOrder
deriving DecidableEq, Repr

/-- The defaults of R9. -/
def Params.defaults : Params where
  loMask16 := true
  mulSecond := .rd
  mulWidth := .low16
  divPlace := .qloRhi
  divuPlace := .qhiRlo
  divOvf := .fault
  extSub := false
  extShift := false
  fetchEndian := none

/-- `P_INIT`: the 34 words the driver chooses when it creates the block (R34, R250). -/
structure Init where
  x : Vector Word 32
  HI : Word
  LO : Word
deriving DecidableEq, Repr

/-- DESIGN CHOICE (log 1, unsafe): the words `State.reset` takes for `P_INIT`. The spec gives no default ("nothing may assume a
register starts at 0", R251); a claim about a start is stated over `State.create P I` for every `I`. -/
def Init.zero : Init where
  x := Vector.replicate 32 0#32
  HI := 0#32
  LO := 0#32

end Sys2Proof
end

