-- ==== Sys2Proof/Syntax.lean ====
section
/-! DEFINITION. The instructions of the block: one constructor of `Instr` per row of spec/opcode_table.json (30_encoding.md R55, R56),
their kinds (40_operation_contract.md R80), the names a driver may ask for, and the commands of the block's interface. -/

namespace Sys2Proof

/-- The kinds of R80: the seventeen instructions of the source and the six extensions. The set is closed. -/
inductive Kind where
  | add | addi | addiu | addu
  | clo | clz | seb | seh
  | mul | mult | multu | madd | maddu | msub | msubu
  | div | divu
  | sub | subu
  | sll | srl | sra | rotr
deriving DecidableEq, Repr

/-- One instruction with its operand identities (R80): "register indices, and, where applicable, a signed 16-bit immediate —
never operand values". The operands stand in the order of R80's table. -/
inductive Instr where
  | add (rs rt rd : Reg)
  | addi (rs : Reg) (imm16 : BitVec 16) (rt : Reg)
  | addiu (rs : Reg) (imm16 : BitVec 16) (rt : Reg)
  | addu (rs rt rd : Reg)
  | clo (rs rd : Reg)
  | clz (rs rd : Reg)
  | div (rs rt : Reg)
  | divu (rs rt : Reg)
  | madd (rs rt : Reg)
  | maddu (rs rt : Reg)
  | msub (rs rt : Reg)
  | msubu (rs rt : Reg)
  | mul (rs rt rd : Reg)
  | mult (rs rt : Reg)
  | multu (rs rt : Reg)
  | seb (rt rd : Reg)
  | seh (rt rd : Reg)
  | sub (rs rt rd : Reg)
  | subu (rs rt rd : Reg)
  | sll (rt rd : Reg) (sa : ShiftAmount)
  | srl (rt rd : Reg) (sa : ShiftAmount)
  | sra (rt rd : Reg) (sa : ShiftAmount)
  | rotr (rt rd : Reg) (sa : ShiftAmount)
deriving DecidableEq, Repr

/-- The kind of an instruction (R80). -/
def Instr.kind : Instr → Kind
  | .add _ _ _ => .add
  | .addi _ _ _ => .addi
  | .addiu _ _ _ => .addiu
  | .addu _ _ _ => .addu
  | .clo _ _ => .clo
  | .clz _ _ => .clz
  | .div _ _ => .div
  | .divu _ _ => .divu
  | .madd _ _ => .madd
  | .maddu _ _ => .maddu
  | .msub _ _ => .msub
  | .msubu _ _ => .msubu
  | .mul _ _ _ => .mul
  | .mult _ _ => .mult
  | .multu _ _ => .multu
  | .seb _ _ => .seb
  | .seh _ _ => .seh
  | .sub _ _ _ => .sub
  | .subu _ _ _ => .subu
  | .sll _ _ _ => .sll
  | .srl _ _ _ => .srl
  | .sra _ _ _ => .sra
  | .rotr _ _ _ => .rotr

/-- Names a driver may ask `construct` for that are no kind of the block (R190): always refused. `other` is any further name. -/
inductive Foreign where
  | slt | sltu | slti | sltiu
  | sllv | srlv | srav | rotrv
  | ctz | popcount
  | mfhi | mflo | mthi | mtlo
  | other (name : String)
deriving DecidableEq, Repr

/-- What `construct` may be asked for: a kind of R80, in force or not, or a name outside them. -/
inductive KindName where
  | known (k : Kind)
  | foreign (f : Foreign)
deriving DecidableEq, Repr

/-- The operand values a driver gives to `construct` (R81), unchecked integers; a kind reads those its row of R80 lists and no other. -/
structure OperandValues where
  rs : Int := 0
  rt : Int := 0
  rd : Int := 0
  imm : Int := 0
  sa : Int := 0
deriving DecidableEq, Repr

/-- The commands of the block's interface (40_operation_contract.md, 30_encoding.md R60). -/
inductive Command where
  | construct (k : KindName) (o : OperandValues)
  | decode (w : Word)
  | execute (h : Nat)
  | reverse (h : Nat)
  | encode (h : Nat)
  | read (i : Int)
  | write (i : Int) (w : Word)
  | readHI
  | writeHI (w : Word)
  | readLO
  | writeLO (w : Word)
deriving DecidableEq, Repr

end Sys2Proof
end

