-- ==== Sys2Proof/WellFormed.lean ====
section
/-! DEFINITION. When an instruction is one the block has: its kind is in force under the parameters (40_operation_contract.md R80).
And when the values a driver gives for its operands are in range (R81). Register indices, immediates and shift amounts of an `Instr` are
in range by their types, so its kind is all there is to check. -/

namespace Sys2Proof

/-- The kinds in force (R80): SUB and SUBU only under `P_EXT_SUB`, the shifts only under `P_EXT_SHIFT`. -/
def Params.admits (P : Params) : Kind → Bool
  | .add | .addi | .addiu | .addu => true
  | .clo | .clz | .seb | .seh => true
  | .mul | .mult | .multu | .madd | .maddu | .msub | .msubu => true
  | .div | .divu => true
  | .sub | .subu => P.extSub
  | .sll | .srl | .sra | .rotr => P.extShift

/-- The instruction is one the block has under these parameters. -/
def Instr.wellFormed (P : Params) (i : Instr) : Bool := P.admits i.kind

/-- A register index "must be in [0,31]" (R23). -/
def registerInRange (n : Int) : Bool := decide (0 ≤ n) && decide (n ≤ 31)

/-- A signed 16-bit value (R81). -/
def immediateInRange (n : Int) : Bool := decide (-32768 ≤ n) && decide (n ≤ 32767)

/-- A shift amount (R81). -/
def shiftAmountInRange (n : Int) : Bool := decide (0 ≤ n) && decide (n ≤ 31)

/-- The operand values of a construct are in range for a kind: those its row of R80 lists. -/
def OperandValues.wellFormed (o : OperandValues) : Kind → Bool
  | .add | .addu | .sub | .subu | .mul => registerInRange o.rs && registerInRange o.rt && registerInRange o.rd
  | .addi | .addiu => registerInRange o.rs && registerInRange o.rt && immediateInRange o.imm
  | .clo | .clz => registerInRange o.rs && registerInRange o.rd
  | .seb | .seh => registerInRange o.rt && registerInRange o.rd
  | .mult | .multu | .madd | .maddu | .msub | .msubu | .div | .divu => registerInRange o.rs && registerInRange o.rt
  | .sll | .srl | .sra | .rotr => registerInRange o.rt && registerInRange o.rd && shiftAmountInRange o.sa

end Sys2Proof
end

