-- ==== Sys2Proof/Decode.lean ====
section
/-! DEFINITION. The opcode map (30_encoding.md R55, R56), the decoder (R60), total on every word and on any bytes, and after it the encoder. -/

namespace Sys2Proof

/-- One row of the opcode map: a word `w` selects it when `(w AND mask) = pattern` (R55). `select` masks the fields by which R57 says a
word selects the row before its other fixed fields are held against the table: `op` and `funct`, with `sa` under SPECIAL3 and `rs` for
SRL and ROTR. -/
structure OpcodeRow where
  kind : Kind
  pattern : Word
  mask : Word
  select : Word
deriving DecidableEq, Repr

/-- The rows of R55. -/
def sourceRows : List OpcodeRow :=
  [⟨.add,   0x00000020#32, 0xFC0007FF#32, 0xFC00003F#32⟩,
   ⟨.addi,  0x20000000#32, 0xFC000000#32, 0xFC000000#32⟩,
   ⟨.addiu, 0x24000000#32, 0xFC000000#32, 0xFC000000#32⟩,
   ⟨.addu,  0x00000021#32, 0xFC0007FF#32, 0xFC00003F#32⟩,
   ⟨.clo,   0x70000021#32, 0xFC0007FF#32, 0xFC00003F#32⟩,
   ⟨.clz,   0x70000020#32, 0xFC0007FF#32, 0xFC00003F#32⟩,
   ⟨.div,   0x0000001A#32, 0xFC00FFFF#32, 0xFC00003F#32⟩,
   ⟨.divu,  0x0000001B#32, 0xFC00FFFF#32, 0xFC00003F#32⟩,
   ⟨.madd,  0x70000000#32, 0xFC00FFFF#32, 0xFC00003F#32⟩,
   ⟨.maddu, 0x70000001#32, 0xFC00FFFF#32, 0xFC00003F#32⟩,
   ⟨.msub,  0x70000004#32, 0xFC00FFFF#32, 0xFC00003F#32⟩,
   ⟨.msubu, 0x70000005#32, 0xFC00FFFF#32, 0xFC00003F#32⟩,
   ⟨.mul,   0x70000002#32, 0xFC0007FF#32, 0xFC00003F#32⟩,
   ⟨.mult,  0x00000018#32, 0xFC00FFFF#32, 0xFC00003F#32⟩,
   ⟨.multu, 0x00000019#32, 0xFC00FFFF#32, 0xFC00003F#32⟩,
   ⟨.seb,   0x7C000420#32, 0xFFE007FF#32, 0xFC0007FF#32⟩,
   ⟨.seh,   0x7C000620#32, 0xFFE007FF#32, 0xFC0007FF#32⟩]

/-- The extension rows of R56. -/
def extensionRows : List OpcodeRow :=
  [⟨.sub,   0x00000022#32, 0xFC0007FF#32, 0xFC00003F#32⟩,
   ⟨.subu,  0x00000023#32, 0xFC0007FF#32, 0xFC00003F#32⟩,
   ⟨.sll,   0x00000000#32, 0xFFE0003F#32, 0xFC00003F#32⟩,
   ⟨.srl,   0x00000002#32, 0xFFE0003F#32, 0xFFE0003F#32⟩,
   ⟨.sra,   0x00000003#32, 0xFFE0003F#32, 0xFC00003F#32⟩,
   ⟨.rotr,  0x00200002#32, 0xFFE0003F#32, 0xFFE0003F#32⟩]

/-- Every row of R55 and R56. -/
def opcodeRows : List OpcodeRow := sourceRows ++ extensionRows

/-- `(w AND mask) = match` (R55). -/
def OpcodeRow.fits (r : OpcodeRow) (w : Word) : Bool := w &&& r.mask == r.pattern

/-- The word selects the row by its opcode fields, whatever its other fixed fields hold (R57). -/
def OpcodeRow.selects (r : OpcodeRow) (w : Word) : Bool := w &&& r.select == r.pattern &&& r.select

/-- The fields of R51 and R52. -/
def rsField (w : Word) : Reg := ⟨(w.extractLsb' 21 5).toNat, (w.extractLsb' 21 5).isLt⟩
/-- `rt = w[20:16]` -/
def rtField (w : Word) : Reg := ⟨(w.extractLsb' 16 5).toNat, (w.extractLsb' 16 5).isLt⟩
/-- `rd = w[15:11]` -/
def rdField (w : Word) : Reg := ⟨(w.extractLsb' 11 5).toNat, (w.extractLsb' 11 5).isLt⟩
/-- `sa = w[10:6]` -/
def saField (w : Word) : ShiftAmount := ⟨(w.extractLsb' 6 5).toNat, (w.extractLsb' 6 5).isLt⟩
/-- `imm16 = w[15:0]` -/
def imm16Field (w : Word) : BitVec 16 := w.extractLsb' 0 16

/-- "operands of row taken from rs, rt, rd, sa, imm16" (R60). -/
def instrOfFields (w : Word) : Kind → Instr
  | .add => .add (rsField w) (rtField w) (rdField w)
  | .addi => .addi (rsField w) (imm16Field w) (rtField w)
  | .addiu => .addiu (rsField w) (imm16Field w) (rtField w)
  | .addu => .addu (rsField w) (rtField w) (rdField w)
  | .clo => .clo (rsField w) (rdField w)
  | .clz => .clz (rsField w) (rdField w)
  | .seb => .seb (rtField w) (rdField w)
  | .seh => .seh (rtField w) (rdField w)
  | .mul => .mul (rsField w) (rtField w) (rdField w)
  | .mult => .mult (rsField w) (rtField w)
  | .multu => .multu (rsField w) (rtField w)
  | .madd => .madd (rsField w) (rtField w)
  | .maddu => .maddu (rsField w) (rtField w)
  | .msub => .msub (rsField w) (rtField w)
  | .msubu => .msubu (rsField w) (rtField w)
  | .div => .div (rsField w) (rtField w)
  | .divu => .divu (rsField w) (rtField w)
  | .sub => .sub (rsField w) (rtField w) (rdField w)
  | .subu => .subu (rsField w) (rtField w) (rdField w)
  | .sll => .sll (rtField w) (rdField w) (saField w)
  | .srl => .srl (rtField w) (rdField w) (saField w)
  | .sra => .sra (rtField w) (rdField w) (saField w)
  | .rotr => .rotr (rtField w) (rdField w) (saField w)

/-- CLO and CLZ add the condition `w[20:16] = w[15:11]` (R55, R57). -/
def Kind.requiresRtEqRd : Kind → Bool
  | .clo | .clz => true
  | .add | .addi | .addiu | .addu | .seb | .seh => false
  | .mul | .mult | .multu | .madd | .maddu | .msub | .msubu | .div | .divu => false
  | .sub | .subu | .sll | .srl | .sra | .rotr => false

/-- What decoding a word answers (R60): an instruction, or one of the two refusals by name. -/
inductive Decoded where
  | instr (i : Instr)
  /-- the word selects no row in force (R58) -/
  | unsupported (w : Word)
  /-- the word breaks a fixed field of the row it selects (R57) -/
  | reserved (w : Word)
deriving DecidableEq, Repr

/-- The row a word selects among those in force (R60). -/
def admittedRow (P : Params) (w : Word) : Option OpcodeRow :=
  opcodeRows.find? fun r => P.admits r.kind && r.fits w

/-- `decode(w)` (R60), the part before `construct`. -/
def decode (P : Params) (w : Word) : Decoded :=
  match admittedRow P w with
  | some r => if r.kind.requiresRtEqRd && rtField w != rdField w then .reserved w else .instr (instrOfFields w r.kind)
  | none =>
    match opcodeRows.find? fun r => r.selects w with
    | some r => if P.admits r.kind then .reserved w else .unsupported w
    | none => .unsupported w

/-- The word four bytes make in a given order, for a driver that fetches from byte-addressed memory (R41). -/
def wordOfBytes : ByteOrder → Byte → Byte → Byte → Byte → Word
  | .little, b0, b1, b2, b3 => b3 ++ b2 ++ b1 ++ b0
  | .big, b0, b1, b2, b3 => b0 ++ b1 ++ b2 ++ b3

/-- What decoding bytes answers. The block never sees bytes (R50); this serves an integrator's fetch. -/
inductive BytesDecoded where
  | decoded (d : Decoded) (rest : List Byte)
  /-- fewer than the four bytes of an instruction word (R50) -/
  | truncated
  /-- `P_FETCH_ENDIAN` is left open, so bytes make no word (R41, log 5) -/
  | byteOrderOpen
deriving DecidableEq, Repr

/-- Decode the first four bytes in the integrator's byte order (R41, R50). -/
def decodeBytes (P : Params) : List Byte → BytesDecoded
  | b0 :: b1 :: b2 :: b3 :: rest =>
    match P.fetchEndian with
    | some e => .decoded (decode P (wordOfBytes e b0 b1 b2 b3)) rest
    | none => .byteOrderOpen
  | _ => .truncated

/-- An R-format word (R51) from its fields. -/
def rFormat (op : BitVec 6) (rs rt rd : Reg) (sa : Fin 32) (funct : BitVec 6) : Word :=
  (op.setWidth 32 <<< 26) ||| (BitVec.ofNat 32 rs.val <<< 21) ||| (BitVec.ofNat 32 rt.val <<< 16)
    ||| (BitVec.ofNat 32 rd.val <<< 11) ||| (BitVec.ofNat 32 sa.val <<< 6) ||| funct.setWidth 32

/-- An I-format word (R52) from its fields. -/
def iFormat (op : BitVec 6) (rs rt : Reg) (imm16 : BitVec 16) : Word :=
  (op.setWidth 32 <<< 26) ||| (BitVec.ofNat 32 rs.val <<< 21) ||| (BitVec.ofNat 32 rt.val <<< 16) ||| imm16.setWidth 32

/-- The word of an instruction, from the field columns of R55 and R56 (CLO and CLZ with `rt = rd`, R62). It is no command of the block:
the block's own encode accessor is unimplemented (R86). -/
def encode : Instr → Word
  | .add rs rt rd => rFormat 0b000000#6 rs rt rd 0 0x20#6
  | .addi rs imm16 rt => iFormat 0b001000#6 rs rt imm16
  | .addiu rs imm16 rt => iFormat 0b001001#6 rs rt imm16
  | .addu rs rt rd => rFormat 0b000000#6 rs rt rd 0 0x21#6
  | .clo rs rd => rFormat 0b011100#6 rs rd rd 0 0x21#6
  | .clz rs rd => rFormat 0b011100#6 rs rd rd 0 0x20#6
  | .div rs rt => rFormat 0b000000#6 rs rt 0 0 0x1A#6
  | .divu rs rt => rFormat 0b000000#6 rs rt 0 0 0x1B#6
  | .madd rs rt => rFormat 0b011100#6 rs rt 0 0 0x00#6
  | .maddu rs rt => rFormat 0b011100#6 rs rt 0 0 0x01#6
  | .msub rs rt => rFormat 0b011100#6 rs rt 0 0 0x04#6
  | .msubu rs rt => rFormat 0b011100#6 rs rt 0 0 0x05#6
  | .mul rs rt rd => rFormat 0b011100#6 rs rt rd 0 0x02#6
  | .mult rs rt => rFormat 0b000000#6 rs rt 0 0 0x18#6
  | .multu rs rt => rFormat 0b000000#6 rs rt 0 0 0x19#6
  | .seb rt rd => rFormat 0b011111#6 0 rt rd 0x10 0x20#6
  | .seh rt rd => rFormat 0b011111#6 0 rt rd 0x18 0x20#6
  | .sub rs rt rd => rFormat 0b000000#6 rs rt rd 0 0x22#6
  | .subu rs rt rd => rFormat 0b000000#6 rs rt rd 0 0x23#6
  | .sll rt rd sa => rFormat 0b000000#6 0 rt rd sa 0x00#6
  | .srl rt rd sa => rFormat 0b000000#6 0 rt rd sa 0x02#6
  | .sra rt rd sa => rFormat 0b000000#6 0 rt rd sa 0x03#6
  | .rotr rt rd sa => rFormat 0b000000#6 1 rt rd sa 0x02#6

/-- The parameters with the extension switched on whose row the word fits, and unchanged for every other word (log 7). -/
def Params.admitting (P : Params) (w : Word) : Params :=
  match opcodeRows.find? fun r => r.fits w with
  | some ⟨.sub, _, _, _⟩ | some ⟨.subu, _, _, _⟩ => { P with extSub := true }
  | some ⟨.sll, _, _, _⟩ | some ⟨.srl, _, _, _⟩ | some ⟨.sra, _, _, _⟩ | some ⟨.rotr, _, _, _⟩ => { P with extShift := true }
  | _ => P

/-- The word of an opcode-table row given as `nbits` bits of a number, the bits above them zero. -/
def tableWord (nbits w : Nat) : Word := BitVec.ofNat 32 (w % 2 ^ nbits)

/-- The instruction the decoder reads from a table row's word, with the parameter of the row's extension on (log 7). The block takes
words as 32-bit values (R50), so there is no byte order to lay out. -/
def decodeTableWord (nbits w : Nat) : Option Instr :=
  match decode (Params.defaults.admitting (tableWord nbits w)) (tableWord nbits w) with
  | .instr i => some i
  | .unsupported _ => none
  | .reserved _ => none

end Sys2Proof
end

