-- ==== Sys2Proof/Machine/State.lean ====
section
/-! DEFINITION. The state of the block (10_state.md), plain data, the faults and refusals of 60_exceptions.md R224 and R225, and the state
the driver creates (R34). Two fields are the model's own and no storage of the block: `params`, the spec's argument P, and `commands`,
the commands the driver has issued (log 2, log 4). -/

namespace Sys2Proof.Machine

/-- The faults of R224. Each ends its command, writes nothing but `status`, and stops the block for good: safe, the source calls each fatal,
undefined, not well defined, or is silent on it. -/
inductive Fault where
  /-- `ContractViolation(index i)`: raised by construct, read and write for an index outside [0,31]. Safe: the source calls it fatal. -/
  | contractIndex (i : Int)
  /-- `ContractViolation(immediate n)`: raised by construct. Safe: no signed 16-bit value is meant. -/
  | contractImmediate (n : Int)
  /-- `ContractViolation(shift amount n)`: raised by construct. Safe: no 5-bit amount is meant. -/
  | contractShiftAmount (n : Int)
  /-- `ContractViolation(handle h)`: raised by execute, reverse and encode for a handle construct never returned. Safe. -/
  | contractHandle (h : Nat)
  /-- `ContractViolation(reverse without matching execute, h)`: raised by reverse when `live(h)` is false. Safe: the source calls such a
  reverse not well defined. -/
  | contractReverse (h : Nat)
  /-- `NotImplemented(encode)`: raised by every encode of a known handle. Safe: the source calls it fatal. -/
  | notImplementedEncode (h : Nat)
  /-- `DivideByZero(rs, rt)`: raised by DIV and DIVU (R171). Safe: the source leaves the result undefined. -/
  | divideByZero (rs rt : Reg)
  /-- `DivideOverflow(rs, rt)`: raised by DIV under `P_DIV_OVF = FAULT` (R173). Safe: the source does not mention the case. -/
  | divideOverflow (rs rt : Reg)
deriving DecidableEq, Repr

/-- The refusals of R225, and the one of the model's own plan. -/
inductive Refusal where
  /-- An instruction of the table without a meaning yet: raised by a refused arm of exec alone. Safe. -/
  | notModelled (mnemonic : String)
  /-- `Unsupported(name)`: raised by construct for a kind not in force (R190). Safe. -/
  | unsupportedKind (k : KindName)
  /-- `Unsupported(word)`: raised by decode (R58). Safe. -/
  | unsupportedWord (w : Word)
  /-- `Reserved(word)`: raised by decode (R57). Safe. -/
  | reservedWord (w : Word)
deriving DecidableEq, Repr

/-- The block's status (R33). -/
inductive Status where
  | running
  | faulted (f : Fault)
  | refused (r : Refusal)
deriving DecidableEq, Repr

/-- The one prior-value slot of an operation instance (R31). -/
inductive Slot where
  | empty
  | reg (i : Reg) (v : Word)
  | pair (hi lo : Word)
deriving DecidableEq, Repr

/-- An operation instance (R31, R80): the spec's `kind, rs, rt, rd, imm` are the fields of `instr`. -/
structure Operation where
  instr : Instr
  slot : Slot
  live : Bool
deriving DecidableEq, Repr

/-- What a command hands back beside the trap output: a handle (R81), a word (R87), or nothing. -/
inductive Result where
  | nothing
  | handle (h : Nat)
  | word (w : Word)
deriving DecidableEq, Repr

/-- The output of the latest command (`step(P, state, command) -> (state', output)`, 40_operation_contract.md). -/
structure Output where
  /-- the trap output of R82 and R220 -/
  trap : Bool
  result : Result
deriving DecidableEq, Repr

/-- No trap and nothing handed back. -/
def Output.quiet : Output := { trap := false, result := .nothing }

/-- The state: the record at the head of 10_state.md, the latest command's output, and the model's own `params` and `commands`. -/
structure State where
  /-- general-purpose registers (R20) -/
  x : Vector Word 32
  /-- R24 -/
  HI : Word
  /-- R24 -/
  LO : Word
  /-- `ovf_count`, the overflow trap record (R30) -/
  ovfCount : Nat
  /-- operation instances by handle (R31) -/
  insts : List Operation
  /-- R33 -/
  status : Status
  /-- output of the latest command (R82, R87); log 3 -/
  out : Output
  /-- the parameters P (R9); log 4 -/
  params : Params
  /-- commands the driver has issued, oldest first (92_eei_decisions.md D6); log 2 -/
  commands : List Command
deriving DecidableEq, Repr

/-- The outcome of an instruction, a command or a step. -/
abbrev Outcome := Host.Outcome State Fault Refusal

/-- The state a driver creates with given parameters and initial words (R34, R250). -/
def State.create (P : Params) (I : Init) : State where
  x := I.x
  HI := I.HI
  LO := I.LO
  ovfCount := 0
  insts := []
  status := .running
  out := Output.quiet
  params := P
  commands := []

/-- The state created with the defaults of R9; the words of `P_INIT` are a DESIGN CHOICE (log 1, unsafe). -/
def State.reset : State := State.create Params.defaults Init.zero

end Sys2Proof.Machine
end

