-- ==== Sys2Proof/Machine/Operands.lean ====
section
/-! DEFINITION. Values and operand forms: the notation of 00_scope.md R11 and R13, the immediate of 30_encoding.md R53, and the bit-field
results of 42_bitcount_signext.md and 45_extensions.md. -/

namespace Sys2Proof.Machine

/-- `uint(v)` (R11). -/
abbrev uint {n : Nat} (v : BitVec n) : Int := (v.toNat : Int)

/-- `sint(v)` (R11). -/
abbrev sint {n : Nat} (v : BitVec n) : Int := v.toInt

/-- `wrap_N(n)` (R11): the pattern of an unbounded integer modulo 2^N. -/
abbrev wrap (N : Nat) (n : Int) : BitVec N := BitVec.ofInt N n

/-- `sext_32(v)` (R11). -/
abbrev sext32 {n : Nat} (v : BitVec n) : Word := v.signExtend 32

/-- `zext_32(v)` (R11). -/
abbrev zext32 {n : Nat} (v : BitVec n) : Word := v.setWidth 32

/-- `div_t(a, b)` (R11): division truncated toward zero. -/
abbrev divT (a b : Int) : Int := a.tdiv b

/-- `rem_t(a, b) = a - b * div_t(a, b)` (R11). -/
abbrev remT (a b : Int) : Int := a - b * divT a b

/-- Number of consecutive bits equal to `b` from bit `n - 1` downward. -/
def leadingRun (b : Bool) (v : Word) : Nat → Nat
  | 0 => 0
  | n + 1 => if v.getLsbD n = b then leadingRun b v n + 1 else 0

/-- `clz32(v)` (R13). -/
def clz32 (v : Word) : Nat := leadingRun false v 32

/-- `clo32(v)` (R13). -/
def clo32 (v : Word) : Nat := leadingRun true v 32

/-- The operand of ADDIU, `sext_32(imm16)` (R53). -/
def immOperand (imm16 : BitVec 16) : Word := sext32 imm16

/-- `wrap_32(uint(v) * 2^sa)` (R200). -/
def shiftLeft (v : Word) (sa : ShiftAmount) : Word := wrap 32 (uint v * 2 ^ sa.val)

/-- `zext_32(v[31:sa])` (R202). -/
def shiftRightLogical (v : Word) (sa : ShiftAmount) : Word := zext32 (v.extractLsb' sa.val (32 - sa.val))

/-- `sext_32(v[31:sa])` (R204). -/
def shiftRightArithmetic (v : Word) (sa : ShiftAmount) : Word := sext32 (v.extractLsb' sa.val (32 - sa.val))

/-- `v[sa-1:0] ++ v[31:sa]` (R206); for `sa = 0` the high part is empty. -/
def rotateRightBy (v : Word) (sa : ShiftAmount) : Word :=
  (v.extractLsb' 0 sa.val ++ v.extractLsb' sa.val (32 - sa.val)).setWidth 32

/-- The register an in-range index names (R23). -/
def regOfInt (n : Int) : Reg := Fin.ofNat 32 n.toNat

/-- The shift amount an in-range integer names (R81). -/
def shiftOfInt (n : Int) : ShiftAmount := Fin.ofNat 32 n.toNat

end Sys2Proof.Machine
end

