-- ==== Sys2Proof/Machine/Flags.lean ====
section
/-! DEFINITION. The block has no status flags, condition codes or predicates (10_state.md R28): no instruction writes one. The one condition
its arithmetic computes is the signed overflow of 41_add.md R99, which only decides whether the trap signal is given. -/

namespace Sys2Proof.Machine

/-- The exact signed result does not fit in 32 bits: `S < -2^31` or `S > 2^31 - 1` (R99, R100, R102, R192). -/
def signedOverflow (S : Int) : Bool := decide (S < -2 ^ 31) || decide (S > 2 ^ 31 - 1)

end Sys2Proof.Machine
end

