-- ==== Sys2Proof/Machine/Ops.lean ====
section
/-! DEFINITION. The named operations over the registers, the accumulator pair, the trap record, the instance list and the status. The
instructions and the commands are written over these. -/

namespace Sys2Proof.Machine

/-- `x[i]` (R12, R20). No register is hardwired (R21). -/
def State.readReg (s : State) (i : Reg) : Word := s.x[i.val]

/-- `x[i] <- v` (R12, R21). -/
def State.writeReg (s : State) (i : Reg) (v : Word) : State := { s with x := s.x.set i.val v }

/-- `HI ++ LO`, the 64-bit accumulator (R24). -/
def State.acc (s : State) : DWord := s.HI ++ s.LO

/-- HI and LO written together (R25). -/
def State.writePair (s : State) (hi lo : Word) : State := { s with HI := hi, LO := lo }

/-- `write_acc(R)` (R142): LO keeps 16 or 32 bits by `P_LO_MASK16`. -/
def State.writeAcc (s : State) (R : DWord) : State :=
  s.writePair (R.extractLsb' 32 32) (if s.params.loMask16 then zext32 (R.extractLsb' 0 16) else R.extractLsb' 0 32)

/-- `place(mode, q, r)` (R170). -/
def State.place (s : State) (mode : Place) (q r : Word) : State :=
  match mode with
  | .qloRhi => s.writePair r q
  | .qhiRlo => s.writePair q r

/-- Taking the one exception of the block: `signal OverflowTrap()` (R220). No pc, cause or status is saved, no mode changes and control goes
nowhere (R222, R229); there is no return from it (R230). -/
def State.signalOverflowTrap (s : State) : State :=
  { s with ovfCount := s.ovfCount + 1, out := { s.out with trap := true } }

/-- The shared body of ADD, ADDI and SUB (R100, R102, R192): on signed overflow of the exact result the trap signal and no write, else the
wrapped result to the destination. -/
def State.writeOrTrap (s : State) (d : Reg) (S : Int) : State :=
  if signedOverflow S then s.signalOverflowTrap else s.writeReg d (wrap 32 S)

/-- The destination set of an instance (R32, R80). -/
inductive Dest where
  | reg (i : Reg)
  | hiLo
deriving DecidableEq, Repr

/-- The destination column of R80. -/
def destOf : Instr → Dest
  | .add _ _ rd => .reg rd
  | .addi _ _ rt => .reg rt
  | .addiu _ _ rt => .reg rt
  | .addu _ _ rd => .reg rd
  | .clo _ rd => .reg rd
  | .clz _ rd => .reg rd
  | .div _ _ => .hiLo
  | .divu _ _ => .hiLo
  | .madd _ _ => .hiLo
  | .maddu _ _ => .hiLo
  | .msub _ _ => .hiLo
  | .msubu _ _ => .hiLo
  | .mul _ _ rd => .reg rd
  | .mult _ _ => .hiLo
  | .multu _ _ => .hiLo
  | .seb _ rd => .reg rd
  | .seh _ rd => .reg rd
  | .sub _ _ rd => .reg rd
  | .subu _ _ rd => .reg rd
  | .sll _ rd _ => .reg rd
  | .srl _ rd _ => .reg rd
  | .sra _ rd _ => .reg rd
  | .rotr _ rd _ => .reg rd

/-- The registers a command wrote (R32). -/
inductive Written where
  | nothing
  | reg (i : Reg)
  /-- HI alone, LO alone, or both: each meets the destination set `{HI, LO}` and no other -/
  | hiLo
deriving DecidableEq, Repr

/-- Every register of a destination set is written. -/
def Dest.written : Dest → Written
  | .reg i => .reg i
  | .hiLo => .hiLo

/-- The written registers meet the destination set (R32). -/
def Written.meets : Written → Dest → Bool
  | .nothing, _ => false
  | .reg i, .reg j => i == j
  | .reg _, .hiLo => false
  | .hiLo, .reg _ => false
  | .hiLo, .hiLo => true

/-- `live(h) <- false` for every instance whose destination set meets the written registers (R32). -/
def State.clearLive (s : State) (w : Written) : State :=
  { s with insts := s.insts.map fun o => if w.meets (destOf o.instr) then { o with live := false } else o }

/-- The prior value of a destination set (R83). -/
def State.priorValue (s : State) : Dest → Slot
  | .reg i => .reg i (s.readReg i)
  | .hiLo => .pair s.HI s.LO

/-- `slot(h) <- v` and `live(h) <- l` for the instance `o` at handle `h` (R82, R84); its kind and operands stay (R31). -/
def State.setSlot (s : State) (h : Nat) (o : Operation) (v : Slot) (l : Bool) : State :=
  { s with insts := s.insts.set h { o with slot := v, live := l } }

/-- Append a fresh instance and answer its handle (R81). -/
def State.addOperation (s : State) (i : Instr) : State :=
  { s with insts := s.insts ++ [{ instr := i, slot := .empty, live := false }],
           out := { s.out with result := .handle s.insts.length } }

/-- `output w` (R87). -/
def State.answer (s : State) (w : Word) : State := { s with out := { s.out with result := .word w } }

/-- `status <- Faulted(f)` and nothing else (R224). -/
def State.raise (s : State) (f : Fault) : State := { s with status := .faulted f }

/-- `status <- Refused(r)` and nothing else (R225). -/
def State.refuse (s : State) (r : Refusal) : State := { s with status := .refused r }

end Sys2Proof.Machine
end

