-- ==== Sys2Proof/Machine/Add.lean ====
section
/-! DEFINITION. ADD, ADDI, ADDIU, ADDU (41_add.md). -/

namespace Sys2Proof.Machine

/-- R100, R101 -/
def execAdd (rs rt rd : Reg) (s : State) : Outcome :=
  .next (s.writeOrTrap rd (sint (s.readReg rs) + sint (s.readReg rt)))

/-- R102 -/
def execAddi (rs : Reg) (imm16 : BitVec 16) (rt : Reg) (s : State) : Outcome :=
  .next (s.writeOrTrap rt (sint (s.readReg rs) + sint imm16))

/-- R104 -/
def execAddiu (rs : Reg) (imm16 : BitVec 16) (rt : Reg) (s : State) : Outcome :=
  .next (s.writeReg rt (wrap 32 (uint (s.readReg rs) + uint (immOperand imm16))))

/-- R106 -/
def execAddu (rs rt rd : Reg) (s : State) : Outcome :=
  .next (s.writeReg rd (wrap 32 (uint (s.readReg rs) + uint (s.readReg rt))))

end Sys2Proof.Machine
end

