-- ==== Sys2Proof/Machine/BitCount.lean ====
section
/-! DEFINITION. CLO, CLZ, SEB, SEH (42_bitcount_signext.md). -/

namespace Sys2Proof.Machine

/-- R120 -/
def execClo (rs rd : Reg) (s : State) : Outcome := .next (s.writeReg rd (BitVec.ofNat 32 (clo32 (s.readReg rs))))

/-- R122 -/
def execClz (rs rd : Reg) (s : State) : Outcome := .next (s.writeReg rd (BitVec.ofNat 32 (clz32 (s.readReg rs))))

/-- R124 -/
def execSeb (rt rd : Reg) (s : State) : Outcome := .next (s.writeReg rd (sext32 ((s.readReg rt).extractLsb' 0 8)))

/-- R126 -/
def execSeh (rt rd : Reg) (s : State) : Outcome := .next (s.writeReg rd (sext32 ((s.readReg rt).extractLsb' 0 16)))

end Sys2Proof.Machine
end

