-- ==== Sys2Proof/Machine/Divide.lean ====
section
/-! DEFINITION. DIV, DIVU (44_divide.md). -/

namespace Sys2Proof.Machine

/-- The one signed quotient that does not fit in 32 bits (R173). -/
def divOverflows (a b : Word) : Bool := a == 0x80000000#32 && b == 0xFFFFFFFF#32

/-- R172, with R171 and R173 -/
def execDiv (rs rt : Reg) (s : State) : Outcome :=
  if s.readReg rt = 0#32 then .fault (.divideByZero rs rt)
  else if divOverflows (s.readReg rs) (s.readReg rt) then
    match s.params.divOvf with
    | .fault => .fault (.divideOverflow rs rt)
    | .wrap => .next (s.place s.params.divPlace 0x80000000#32 0x00000000#32)
  else .next (s.place s.params.divPlace
    (wrap 32 (divT (sint (s.readReg rs)) (sint (s.readReg rt)))) (wrap 32 (remT (sint (s.readReg rs)) (sint (s.readReg rt)))))

/-- `floor(uint(a) / uint(b))` of R174. -/
def divuQuotient (a b : Word) : Word := wrap 32 (uint a / uint b)

/-- R174, with R171 -/
def execDivu (rs rt : Reg) (s : State) : Outcome :=
  if s.readReg rt = 0#32 then .fault (.divideByZero rs rt)
  else .next (s.place s.params.divuPlace (divuQuotient (s.readReg rs) (s.readReg rt))
    (wrap 32 (uint (s.readReg rs) - uint (s.readReg rt) * uint (divuQuotient (s.readReg rs) (s.readReg rt)))))

end Sys2Proof.Machine
end

