-- ==== Sys2Proof/Machine/Extensions.lean ====
section
/-! DEFINITION. SUB, SUBU, SLL, SRL, SRA, ROTR (45_extensions.md). An instance of them exists only while their parameter is on: construct and
decode refuse them otherwise (R190), so the rules here test no parameter (R226). -/

namespace Sys2Proof.Machine

/-- R192 -/
def execSub (rs rt rd : Reg) (s : State) : Outcome :=
  .next (s.writeOrTrap rd (sint (s.readReg rs) - sint (s.readReg rt)))

/-- R194 -/
def execSubu (rs rt rd : Reg) (s : State) : Outcome :=
  .next (s.writeReg rd (wrap 32 (uint (s.readReg rs) - uint (s.readReg rt))))

/-- R200 -/
def execSll (rt rd : Reg) (sa : ShiftAmount) (s : State) : Outcome := .next (s.writeReg rd (shiftLeft (s.readReg rt) sa))

/-- R202 -/
def execSrl (rt rd : Reg) (sa : ShiftAmount) (s : State) : Outcome := .next (s.writeReg rd (shiftRightLogical (s.readReg rt) sa))

/-- R204 -/
def execSra (rt rd : Reg) (sa : ShiftAmount) (s : State) : Outcome := .next (s.writeReg rd (shiftRightArithmetic (s.readReg rt) sa))

/-- R206 -/
def execRotr (rt rd : Reg) (sa : ShiftAmount) (s : State) : Outcome := .next (s.writeReg rd (rotateRightBy (s.readReg rt) sa))

end Sys2Proof.Machine
end

