-- ==== Sys2Proof/Machine/Multiply.lean ====
section
/-! DEFINITION. MUL, MULT, MULTU, MADD, MADDU, MSUB, MSUBU (43_multiply.md). -/

namespace Sys2Proof.Machine

/-- The second multiplicand of MUL (R140). -/
def State.mulOperand (s : State) (rt rd : Reg) : Word :=
  match s.params.mulSecond with
  | .rd => s.readReg rd
  | .rt => s.readReg rt

/-- The low product bits MUL keeps (R140). -/
def mulKept (width : MulWidth) (p : Word) : Word :=
  match width with
  | .low16 => zext32 (p.extractLsb' 0 16)
  | .low32 => p

/-- R140 -/
def execMul (rs rt rd : Reg) (s : State) : Outcome :=
  .next (s.writeReg rd (mulKept s.params.mulWidth (wrap 32 (uint (s.readReg rs) * uint (s.mulOperand rt rd)))))

/-- R144 -/
def execMult (rs rt : Reg) (s : State) : Outcome :=
  .next (s.writeAcc (wrap 64 (sint (s.readReg rs) * sint (s.readReg rt))))

/-- R146 -/
def execMultu (rs rt : Reg) (s : State) : Outcome :=
  .next (s.writeAcc (wrap 64 (uint (s.readReg rs) * uint (s.readReg rt))))

/-- R148 -/
def execMadd (rs rt : Reg) (s : State) : Outcome :=
  .next (s.writeAcc (wrap 64 (uint s.acc + sint (s.readReg rs) * sint (s.readReg rt))))

/-- R150 -/
def execMaddu (rs rt : Reg) (s : State) : Outcome :=
  .next (s.writeAcc (wrap 64 (uint s.acc + uint (s.readReg rs) * uint (s.readReg rt))))

/-- R152 -/
def execMsub (rs rt : Reg) (s : State) : Outcome :=
  .next (s.writeAcc (wrap 64 (uint s.acc - sint (s.readReg rs) * sint (s.readReg rt))))

/-- R154 -/
def execMsubu (rs rt : Reg) (s : State) : Outcome :=
  .next (s.writeAcc (wrap 64 (uint s.acc - uint (s.readReg rs) * uint (s.readReg rt))))

end Sys2Proof.Machine
end

