-- ==== Sys2Proof/Machine/Dispatch.lean ====
section
/-! DEFINITION. The instruction rules, one arm per constructor of Instr. An instruction's rule gives its own effect only; the slot, the live
bits and the clearing of the trap output wrap it in the execute command (40_operation_contract.md R82, R88; Machine/Commands.lean). -/

namespace Sys2Proof.Machine

def exec (i : Instr) (s : State) : Host.Outcome State Fault Refusal :=
  match i with
  | .add rs rt rd => Sys2Proof.Machine.execAdd rs rt rd s
  | .addi rs imm16 rt => Sys2Proof.Machine.execAddi rs imm16 rt s
  | .addiu rs imm16 rt => Sys2Proof.Machine.execAddiu rs imm16 rt s
  | .addu rs rt rd => Sys2Proof.Machine.execAddu rs rt rd s
  | .clo rs rd => Sys2Proof.Machine.execClo rs rd s
  | .clz rs rd => Sys2Proof.Machine.execClz rs rd s
  | .div rs rt => Sys2Proof.Machine.execDiv rs rt s
  | .divu rs rt => Sys2Proof.Machine.execDivu rs rt s
  | .madd rs rt => Sys2Proof.Machine.execMadd rs rt s
  | .maddu rs rt => Sys2Proof.Machine.execMaddu rs rt s
  | .msub rs rt => Sys2Proof.Machine.execMsub rs rt s
  | .msubu rs rt => Sys2Proof.Machine.execMsubu rs rt s
  | .mul rs rt rd => Sys2Proof.Machine.execMul rs rt rd s
  | .mult rs rt => Sys2Proof.Machine.execMult rs rt s
  | .multu rs rt => Sys2Proof.Machine.execMultu rs rt s
  | .seb rt rd => Sys2Proof.Machine.execSeb rt rd s
  | .seh rt rd => Sys2Proof.Machine.execSeh rt rd s
  | .sub rs rt rd => Sys2Proof.Machine.execSub rs rt rd s
  | .subu rs rt rd => Sys2Proof.Machine.execSubu rs rt rd s
  | .sll rt rd sa => Sys2Proof.Machine.execSll rt rd sa s
  | .srl rt rd sa => Sys2Proof.Machine.execSrl rt rd sa s
  | .sra rt rd sa => Sys2Proof.Machine.execSra rt rd sa s
  | .rotr rt rd sa => Sys2Proof.Machine.execRotr rt rd sa s

end Sys2Proof.Machine
end

