-- ==== Sys2Proof/Machine/Commands.lean ====
section
/-! DEFINITION. The commands of the block (40_operation_contract.md R81 to R87, 30_encoding.md R60), each in the order of checks of
60_exceptions.md R226. A command answers a fault or a refusal as `raise` and `refuse` do in the spec's pseudocode (00_scope.md R12): nothing
is written then. What that does to the status is `State.settle`. -/

namespace Sys2Proof.Machine

/-- The register indices a kind reads from the driver's values, in the order `rs`, `rt`, `rd` (R80, R226). -/
def registerValues (o : OperandValues) : Kind → List Int
  | .add | .addu | .sub | .subu | .mul => [o.rs, o.rt, o.rd]
  | .addi | .addiu => [o.rs, o.rt]
  | .clo | .clz => [o.rs, o.rd]
  | .seb | .seh => [o.rt, o.rd]
  | .mult | .multu | .madd | .maddu | .msub | .msubu | .div | .divu => [o.rs, o.rt]
  | .sll | .srl | .sra | .rotr => [o.rt, o.rd]

/-- The contract violation a kind's immediate or shift amount makes, if any (R81). -/
def lastOperandViolation (o : OperandValues) : Kind → Option Fault
  | .addi | .addiu => if immediateInRange o.imm then none else some (.contractImmediate o.imm)
  | .sll | .srl | .sra | .rotr => if shiftAmountInRange o.sa then none else some (.contractShiftAmount o.sa)
  | .add | .addu | .sub | .subu | .mul | .clo | .clz | .seb | .seh => none
  | .mult | .multu | .madd | .maddu | .msub | .msubu | .div | .divu => none

/-- The contract violation of a construct, the first of R226's order. -/
def constructViolation (o : OperandValues) (k : Kind) : Option Fault :=
  match (registerValues o k).find? fun n => !registerInRange n with
  | some n => some (.contractIndex n)
  | none => lastOperandViolation o k

/-- The instruction a construct with in-range values makes; the immediate is stored as `wrap_16(n)` (R53). -/
def instrOfValues (o : OperandValues) : Kind → Instr
  | .add => .add (regOfInt o.rs) (regOfInt o.rt) (regOfInt o.rd)
  | .addi => .addi (regOfInt o.rs) (wrap 16 o.imm) (regOfInt o.rt)
  | .addiu => .addiu (regOfInt o.rs) (wrap 16 o.imm) (regOfInt o.rt)
  | .addu => .addu (regOfInt o.rs) (regOfInt o.rt) (regOfInt o.rd)
  | .clo => .clo (regOfInt o.rs) (regOfInt o.rd)
  | .clz => .clz (regOfInt o.rs) (regOfInt o.rd)
  | .seb => .seb (regOfInt o.rt) (regOfInt o.rd)
  | .seh => .seh (regOfInt o.rt) (regOfInt o.rd)
  | .mul => .mul (regOfInt o.rs) (regOfInt o.rt) (regOfInt o.rd)
  | .mult => .mult (regOfInt o.rs) (regOfInt o.rt)
  | .multu => .multu (regOfInt o.rs) (regOfInt o.rt)
  | .madd => .madd (regOfInt o.rs) (regOfInt o.rt)
  | .maddu => .maddu (regOfInt o.rs) (regOfInt o.rt)
  | .msub => .msub (regOfInt o.rs) (regOfInt o.rt)
  | .msubu => .msubu (regOfInt o.rs) (regOfInt o.rt)
  | .div => .div (regOfInt o.rs) (regOfInt o.rt)
  | .divu => .divu (regOfInt o.rs) (regOfInt o.rt)
  | .sub => .sub (regOfInt o.rs) (regOfInt o.rt) (regOfInt o.rd)
  | .subu => .subu (regOfInt o.rs) (regOfInt o.rt) (regOfInt o.rd)
  | .sll => .sll (regOfInt o.rt) (regOfInt o.rd) (shiftOfInt o.sa)
  | .srl => .srl (regOfInt o.rt) (regOfInt o.rd) (shiftOfInt o.sa)
  | .sra => .sra (regOfInt o.rt) (regOfInt o.rd) (shiftOfInt o.sa)
  | .rotr => .rotr (regOfInt o.rt) (regOfInt o.rd) (shiftOfInt o.sa)

/-- `construct(kind, operands)` (R81): `Unsupported(kind)` first, then the contract violations (R226). -/
def State.construct (s : State) (k : KindName) (o : OperandValues) : Outcome :=
  match k with
  | .foreign f => .refused (.unsupportedKind (.foreign f))
  | .known kind =>
    if s.params.admits kind then
      match constructViolation o kind with
      | some f => .fault f
      | none => .next (s.addOperation (instrOfValues o kind))
    else .refused (.unsupportedKind (.known kind))

/-- `decode(w)` (R60): a construct of the decoded word, or its refusal. -/
def State.decodeWord (s : State) (w : Word) : Outcome :=
  match decode s.params w with
  | .instr i => .next (s.addOperation i)
  | .unsupported v => .refused (.unsupportedWord v)
  | .reserved v => .refused (.reservedWord v)

/-- What an execute of instance `o` wrote: its destination set, or nothing when it gave the trap signal (R221). -/
def writtenBy (o : Operation) (after : State) : Written :=
  if after.out.trap then .nothing else (destOf o.instr).written

/-- The bookkeeping around an instruction rule that completed (R82, R83): the other instances' `live` bits, then the slot with the prior
value from the state `before` the command and `live(h) <- true`. -/
def State.commitExecute (before after : State) (h : Nat) (o : Operation) : State :=
  (after.clearLive (writtenBy o after)).setSlot h o (before.priorValue (destOf o.instr)) true

/-- `execute(h)` (R82). -/
def State.execute (s : State) (h : Nat) : Outcome :=
  match s.insts[h]? with
  | none => .fault (.contractHandle h)
  | some o =>
    match exec o.instr s with
    | .next t => .next (s.commitExecute t h o)
    | .fault f => .fault f
    | .refused r => .refused r

/-- The destination set restored from a slot (R84). -/
def State.restore (s : State) : Slot → State
  | .empty => s
  | .reg i v => s.writeReg i v
  | .pair hi lo => s.writePair hi lo

/-- The registers a restore from a slot writes. -/
def Slot.written : Slot → Written
  | .empty => .nothing
  | .reg i _ => .reg i
  | .pair _ _ => .hiLo

/-- `reverse(h)` (R84). A live instance with an empty slot, which no run reaches, takes the same fault as one that is not live (log 6). -/
def State.reverse (s : State) (h : Nat) : Outcome :=
  match s.insts[h]? with
  | none => .fault (.contractHandle h)
  | some o =>
    if o.live && o.slot != .empty then
      .next (((s.restore o.slot).clearLive o.slot.written).setSlot h o .empty false)
    else .fault (.contractReverse h)

/-- `encode(h)` (R86): a deliberate stub. -/
def State.encodeAccessor (s : State) (h : Nat) : Outcome :=
  match s.insts[h]? with
  | none => .fault (.contractHandle h)
  | some _ => .fault (.notImplementedEncode h)

/-- `read(i)` (R87). -/
def State.readCommand (s : State) (i : Int) : Outcome :=
  if registerInRange i then .next (s.answer (s.readReg (regOfInt i))) else .fault (.contractIndex i)

/-- `write(i, w)` (R87), with the `live` bits of R32. -/
def State.writeCommand (s : State) (i : Int) (w : Word) : Outcome :=
  if registerInRange i then .next ((s.writeReg (regOfInt i) w).clearLive (.reg (regOfInt i))) else .fault (.contractIndex i)

/-- `writeHI(w)` (R87), with the `live` bits of R32. -/
def State.writeHICommand (s : State) (w : Word) : Outcome := .next ({ s with HI := w }.clearLive .hiLo)

/-- `writeLO(w)` (R87), with the `live` bits of R32. -/
def State.writeLOCommand (s : State) (w : Word) : Outcome := .next ({ s with LO := w }.clearLive .hiLo)

/-- One command of the driver (40_operation_contract.md). -/
def State.perform (s : State) : Command → Outcome
  | .construct k o => s.construct k o
  | .decode w => s.decodeWord w
  | .execute h => s.execute h
  | .reverse h => s.reverse h
  | .encode h => s.encodeAccessor h
  | .read i => s.readCommand i
  | .write i w => s.writeCommand i w
  | .readHI => .next (s.answer s.HI)
  | .writeHI w => s.writeHICommand w
  | .readLO => .next (s.answer s.LO)
  | .writeLO w => s.writeLOCommand w

/-- The command is taken from the driver's list, and its outputs start silent (R82). -/
def State.take (s : State) (rest : List Command) : State := { s with commands := rest, out := Output.quiet }

/-- A command that raised or refused leaves its taken state `s` with the reason stored in `status` (R224, R225). -/
def State.settle (s : State) : Outcome → Outcome
  | .next t => .next t
  | .fault f => .next (s.raise f)
  | .refused r => .next (s.refuse r)

/-- One step of the block: a faulted or refused block reports its stored reason (R227); a running one takes the driver's next command, and
with none issued nothing changes (R228, log 2). -/
def State.stepOnce (s : State) : Outcome :=
  match s.status with
  | .faulted f => .fault f
  | .refused r => .refused r
  | .running =>
    match s.commands with
    | [] => .next s
    | c :: rest => (s.take rest).settle ((s.take rest).perform c)

/-- An instruction word made ready to run (log 7): its parameter on, its instance constructed, and the execute of that instance the
driver's next command. A word that decodes to no instruction becomes the driver's next decode command, which refuses it. -/
def State.loadTableWord (s : State) (nbits w : Nat) : State :=
  let P := s.params.admitting (tableWord nbits w)
  match decode P (tableWord nbits w) with
  | .instr i =>
    { s with params := P, insts := s.insts ++ [{ instr := i, slot := .empty, live := false }],
             commands := .execute s.insts.length :: s.commands }
  | .unsupported v => { s with commands := .decode v :: s.commands }
  | .reserved v => { s with commands := .decode v :: s.commands }

end Sys2Proof.Machine
end

