-- ==== Sys2Proof/Machine/Step.lean ====
section
/-! DEFINITION. The step of the machine and the entry by which one instruction word is made its next (log 7); both are defined in
Machine/Commands.lean. -/

namespace Sys2Proof.Machine

/-- One step: one command (70_reset_and_hazards.md R257). -/
def step (s : State) : Host.Outcome State Fault Refusal := s.stepOnce

/-- The state whose very next step runs the instruction of the word (log 7). -/
def State.withFetchWord (s : State) (nbits w : Nat) : State := s.loadTableWord nbits w

end Sys2Proof.Machine
end

