-- ==== Sys2Proof/Safety.lean ====
section
/-! DEFINITION. What counts as a safe run, and the relations between two states that claims use. -/

namespace Sys2Proof.Machine

/-- "A model's claims take `status = Running` at the end as a premise" (R33). -/
def State.isRunning (s : State) : Prop := s.status = .running

/-- A run is safe when `k` steps end in a block that is still running (R33, R227). -/
def safeRun (k : Nat) (s : State) : Prop := ∃ t, Host.Core.run Sys2Proof.core k s = .next t ∧ t.isRunning

/-- Everything outside the register file, HI, LO, the trap record and the output: what no instruction rule changes. -/
structure SameSurroundings (s t : State) : Prop where
  insts : t.insts = s.insts
  status : t.status = s.status
  params : t.params = s.params
  commands : t.commands = s.commands

/-- `t` is `s` but for general-purpose register `d`: every other register, HI, LO, the trap record and the output are as before. -/
structure OnlyRegChanged (d : Reg) (s t : State) : Prop where
  others : ∀ r, r ≠ d → t.readReg r = s.readReg r
  hi : t.HI = s.HI
  lo : t.LO = s.LO
  ovfCount : t.ovfCount = s.ovfCount
  out : t.out = s.out
  rest : SameSurroundings s t

/-- `t` is `s` but for HI and LO. -/
structure OnlyPairChanged (s t : State) : Prop where
  regs : ∀ r, t.readReg r = s.readReg r
  ovfCount : t.ovfCount = s.ovfCount
  out : t.out = s.out
  rest : SameSurroundings s t

/-- `t` is `s` after one overflow trap signal and nothing else (R220, R221): one more signal counted, the trap output on, and no register
written. -/
structure OnlyTrapSignalled (s t : State) : Prop where
  regs : ∀ r, t.readReg r = s.readReg r
  hi : t.HI = s.HI
  lo : t.LO = s.LO
  ovfCount : t.ovfCount = s.ovfCount + 1
  trap : t.out.trap = true
  result : t.out.result = s.out.result
  rest : SameSurroundings s t

/-- The command was turned away: `t` is `s` with the command taken, nothing output and `v` stored in status (R224, R225). -/
def TurnedAway (s : State) (rest : List Command) (v : Status) (t : State) : Prop :=
  t = { s with commands := rest, out := Output.quiet, status := v }

/-- HI and LO hold the 64-bit pattern `R` as `write_acc(R)` leaves it (R142). -/
def HoldsAcc (P : Params) (R : DWord) (t : State) : Prop :=
  t.HI = R.extractLsb' 32 32 ∧ t.LO = if P.loMask16 = true then (R.extractLsb' 0 16).setWidth 32 else R.extractLsb' 0 32

/-- HI and LO hold a quotient and a remainder in the given placement (R170). -/
def Placed (m : Place) (q r : Word) (t : State) : Prop :=
  match m with
  | .qloRhi => t.LO = q ∧ t.HI = r
  | .qhiRlo => t.HI = q ∧ t.LO = r

/-- Every word of an opcode row decodes to the instruction of its fields, under every choice of parameters that admits it (R55, R56). -/
def DecodesAs (admitted : Params → Prop) (mask pattern : Word) (f : Word → Instr) : Prop :=
  ∀ (P : Params) (w : Word), admitted P → w &&& mask = pattern → decode P w = .instr (f w)

/-- While the parameter of an extension row is off, its words are unsupported (R58). -/
def RefusedWhile (off : Params → Prop) (mask pattern : Word) : Prop :=
  ∀ (P : Params) (w : Word), off P → w &&& mask = pattern → decode P w = .unsupported w

/-- The instance's operand identities are the values a driver gave to construct (R81). -/
def HasValues (v : OperandValues) : Instr → Prop
  | .add rs rt rd | .addu rs rt rd | .sub rs rt rd | .subu rs rt rd | .mul rs rt rd =>
    (rs.val : Int) = v.rs ∧ (rt.val : Int) = v.rt ∧ (rd.val : Int) = v.rd
  | .addi rs imm16 rt | .addiu rs imm16 rt => (rs.val : Int) = v.rs ∧ imm16.toInt = v.imm ∧ (rt.val : Int) = v.rt
  | .clo rs rd | .clz rs rd => (rs.val : Int) = v.rs ∧ (rd.val : Int) = v.rd
  | .seb rt rd | .seh rt rd => (rt.val : Int) = v.rt ∧ (rd.val : Int) = v.rd
  | .mult rs rt | .multu rs rt | .madd rs rt | .maddu rs rt | .msub rs rt | .msubu rs rt | .div rs rt | .divu rs rt =>
    (rs.val : Int) = v.rs ∧ (rt.val : Int) = v.rt
  | .sll rt rd sa | .srl rt rd sa | .sra rt rd sa | .rotr rt rd sa =>
    (rt.val : Int) = v.rt ∧ (rd.val : Int) = v.rd ∧ (sa.val : Int) = v.sa

/-- The `live` bit of instance `g`, with destination set `d` and `live = l` before, after a command that completed (R32). `target` is the
destination set of the instance an execute or a reverse names, and `trap` the trap output of the command. -/
def liveAfter (c : Command) (trap : Bool) (target : Option Dest) (g : Nat) (d : Dest) (l : Bool) : Bool :=
  match c with
  | .execute h => if g = h then true else if trap = false ∧ target = some d then false else l
  | .reverse h => if g = h then false else if target = some d then false else l
  | .write i _ => if d = .reg (regOfInt i) then false else l
  | .writeHI _ => if d = .hiLo then false else l
  | .writeLO _ => if d = .hiLo then false else l
  | .construct _ _ => l
  | .decode _ => l
  | .encode _ => l
  | .read _ => l
  | .readHI => l
  | .readLO => l

/-- The exact signed result of the three instructions that can give the trap signal (R100, R102, R192); none for every other (R220). -/
def trappingResult (s : State) : Instr → Option Int
  | .add rs rt _ => some ((s.readReg rs).toInt + (s.readReg rt).toInt)
  | .addi rs imm16 _ => some ((s.readReg rs).toInt + imm16.toInt)
  | .sub rs rt _ => some ((s.readReg rs).toInt - (s.readReg rt).toInt)
  | .addiu _ _ _ | .addu _ _ _ | .clo _ _ | .clz _ _ | .seb _ _ | .seh _ _ => none
  | .mul _ _ _ | .mult _ _ | .multu _ _ | .madd _ _ | .maddu _ _ | .msub _ _ | .msubu _ _ | .div _ _ | .divu _ _ => none
  | .subu _ _ _ | .sll _ _ _ | .srl _ _ _ | .sra _ _ _ | .rotr _ _ _ => none

/-- The command is an execute of ADD, ADDI or SUB whose exact signed result does not fit in 32 bits (R220). -/
def Overflows (s : State) (c : Command) : Prop :=
  ∃ h o S, c = .execute h ∧ s.insts[h]? = some o ∧ trappingResult s o.instr = some S ∧ (S < -2 ^ 31 ∨ S > 2 ^ 31 - 1)

/-- Every register, HI and LO agree. -/
structure SameRegisters (s t : State) : Prop where
  regs : ∀ r, t.readReg r = s.readReg r
  hi : t.HI = s.HI
  lo : t.LO = s.LO

/-- The slot is empty or holds a prior value of exactly the destination set (R31, R83). -/
def Slot.fits : Slot → Dest → Prop
  | .empty, _ => True
  | .reg i _, d => d = .reg i
  | .pair _ _, d => d = .hiLo

/-- An instance the block can hold: its kind is in force (R80), its slot fits its destination set (R31), and where it is live its slot
is filled (R31, R32). -/
structure Operation.Sound (P : Params) (o : Operation) : Prop where
  kind : o.instr.wellFormed P = true
  slot : o.slot.fits (destOf o.instr)
  live : o.live = true → o.slot ≠ .empty

/-- The invariant of the instance list. -/
def State.Sound (s : State) : Prop := ∀ o ∈ s.insts, o.Sound s.params

end Sys2Proof.Machine
end

