-- ==== Sys2Proof/Certificates/Slice0/Obligations.lean ====
section
/-! DEFINITION. The statements for the provers, in the order of the spec's files. Words, masks and bit numbers are written out from the spec;
`toInt` and `toNat` are the signed and unsigned value of a word (00_scope.md R11). -/

open Sys2Proof Sys2Proof.Machine

/-! ### State and registers -/

/-- R34: the state a driver creates, for any parameters and any initial words; and a new instance. -/
def Obligations.CreatedStateHoldsDriversWords : Prop :=
  ∀ (P : Params) (I : Init),
    (∀ r : Reg, (State.create P I).readReg r = I.x[r.val]) ∧ (State.create P I).HI = I.HI ∧ (State.create P I).LO = I.LO ∧
    (State.create P I).ovfCount = 0 ∧ (State.create P I).insts = [] ∧ (State.create P I).status = .running ∧
    ∀ (s : State) (i : Instr), (s.addOperation i).insts = s.insts ++ [{ instr := i, slot := .empty, live := false }]

/-- R21: a word written to any register, register 0 included, is what a later read of it answers. -/
def Obligations.EveryRegisterKeepsWhatIsWritten : Prop :=
  ∀ (s : State) (r : Reg) (w : Word) (rest : List Command), s.status = .running →
    s.commands = .write r.val w :: .read r.val :: rest →
    ∃ t, Host.Core.run Sys2Proof.core 2 s = .next t ∧ t.out.result = .word w ∧ t.readReg r = w ∧
      (∀ q, q ≠ r → t.readReg q = s.readReg q) ∧ t.HI = s.HI ∧ t.LO = s.LO ∧ t.ovfCount = s.ovfCount ∧ t.status = .running

/-- From R22: an instruction writes no general-purpose register but its destination, and HI and LO only where they are its destination set. -/
def Obligations.InstructionsWriteOnlyTheirDestination : Prop :=
  ∀ (i : Instr) (s t : State), exec i s = .next t →
    (∀ r, destOf i ≠ .reg r → t.readReg r = s.readReg r) ∧
    (destOf i ≠ .hiLo → t.HI = s.HI ∧ t.LO = s.LO) ∧ SameSurroundings s t

/-- R220: the trap signal is given exactly by an execute of ADD, ADDI or SUB whose exact signed result overflows: the record rises by 1 and the
trap output is 1; every other command leaves the record and gives no trap output. -/
def Obligations.OnlyOverflowingAddsAndSubSignalTheTrap : Prop :=
  ∀ (s t : State) (c : Command) (rest : List Command), s.commands = c :: rest → step s = .next t →
    (Overflows s c → t.ovfCount = s.ovfCount + 1 ∧ t.out.trap = true) ∧
    (¬ Overflows s c → t.ovfCount = s.ovfCount ∧ t.out.trap = false)

/-- R31, R48: no step changes the kind or operands of an instance or takes one away, and it appends at most one (R81); and no step changes
the parameters (log 4). What a step does to an instance's slot and `live` bit is not said here. -/
def Obligations.KindsOperandsAndParametersNeverChange : Prop :=
  ∀ (s t : State), step s = .next t →
    t.params = s.params ∧ ∃ new, t.insts.map Operation.instr = s.insts.map Operation.instr ++ new ∧ new.length ≤ 1

/-- R32: how every command that completes leaves the `live` bit of every instance; and a reversed instance's slot is empty. -/
def Obligations.LiveBitsFollowEveryCommand : Prop :=
  ∀ (s t : State) (c : Command) (rest : List Command), s.Sound → s.commands = c :: rest → step s = .next t → t.status = .running →
    ∀ (g : Nat) (o : Operation), s.insts[g]? = some o →
      ∃ o', t.insts[g]? = some o' ∧ o'.instr = o.instr ∧ (c = .reverse g → o'.slot = .empty) ∧
        o'.live = liveAfter c t.out.trap
          (match c with
           | .execute h => s.insts[h]?.map fun p => destOf p.instr
           | .reverse h => s.insts[h]?.map fun p => destOf p.instr
           | _ => none) g (destOf o.instr) o.live

/-- The instance list stays sound: kinds in force, slots of the right shape, no live instance with an empty slot. -/
def Obligations.EveryStepKeepsInstancesSound : Prop :=
  ∀ (s t : State), s.Sound → step s = .next t → t.Sound

/-- The instances of a created block, and of the reset state (whose initial words are the choice of log 1), are sound. -/
def Obligations.CreatedInstancesAreSound : Prop :=
  (∀ (P : Params) (I : Init), (State.create P I).Sound) ∧ State.reset.Sound

/-! ### Encoding -/

/-- From R53: a signed 16-bit immediate survives its field, and its operand is its sign extension. -/
def Obligations.ImmediateFieldKeepsSignedValue : Prop :=
  (∀ n : Int, -32768 ≤ n → n ≤ 32767 → (BitVec.ofInt 16 n).toInt = n) ∧
  (∀ imm16 : BitVec 16, (immOperand imm16).toInt = imm16.toInt ∧ -32768 ≤ imm16.toInt ∧ imm16.toInt ≤ 32767) ∧
  (∀ (w : Word) (i : Nat), i < 16 → (imm16Field w).getLsbD i = w.getLsbD i)

/-- The rows of R55 and R56: kind, match, mask, and the fields by which R57 and R60 say that a word selects the row (`op` and `funct`; `op`
alone in the immediate format; with `sa` under SPECIAL3 and with `rs` for SRL and ROTR). And at most one row matches a word, which is the
inference that the spec marks as its own under R61 ("derived: from rule R55 and rule R56"). -/
def Obligations.AtMostOneRowMatchesAnyWord : Prop :=
  opcodeRows.map (fun r => (r.kind, r.pattern, r.mask, r.select)) =
    [(.add, 0x00000020#32, 0xFC0007FF#32, 0xFC00003F#32), (.addi, 0x20000000#32, 0xFC000000#32, 0xFC000000#32),
     (.addiu, 0x24000000#32, 0xFC000000#32, 0xFC000000#32), (.addu, 0x00000021#32, 0xFC0007FF#32, 0xFC00003F#32),
     (.clo, 0x70000021#32, 0xFC0007FF#32, 0xFC00003F#32), (.clz, 0x70000020#32, 0xFC0007FF#32, 0xFC00003F#32),
     (.div, 0x0000001A#32, 0xFC00FFFF#32, 0xFC00003F#32), (.divu, 0x0000001B#32, 0xFC00FFFF#32, 0xFC00003F#32),
     (.madd, 0x70000000#32, 0xFC00FFFF#32, 0xFC00003F#32), (.maddu, 0x70000001#32, 0xFC00FFFF#32, 0xFC00003F#32),
     (.msub, 0x70000004#32, 0xFC00FFFF#32, 0xFC00003F#32), (.msubu, 0x70000005#32, 0xFC00FFFF#32, 0xFC00003F#32),
     (.mul, 0x70000002#32, 0xFC0007FF#32, 0xFC00003F#32), (.mult, 0x00000018#32, 0xFC00FFFF#32, 0xFC00003F#32),
     (.multu, 0x00000019#32, 0xFC00FFFF#32, 0xFC00003F#32), (.seb, 0x7C000420#32, 0xFFE007FF#32, 0xFC0007FF#32),
     (.seh, 0x7C000620#32, 0xFFE007FF#32, 0xFC0007FF#32), (.sub, 0x00000022#32, 0xFC0007FF#32, 0xFC00003F#32),
     (.subu, 0x00000023#32, 0xFC0007FF#32, 0xFC00003F#32), (.sll, 0x00000000#32, 0xFFE0003F#32, 0xFC00003F#32),
     (.srl, 0x00000002#32, 0xFFE0003F#32, 0xFFE0003F#32), (.sra, 0x00000003#32, 0xFFE0003F#32, 0xFC00003F#32),
     (.rotr, 0x00200002#32, 0xFFE0003F#32, 0xFFE0003F#32)] ∧
  ∀ (w : Word) (r q : OpcodeRow), r ∈ opcodeRows → q ∈ opcodeRows → w &&& r.mask = r.pattern → w &&& q.mask = q.pattern → r = q

/-- R60: what the decoder answers on every word. A word decodes to an instruction exactly when it fits a row in force (with `rt = rd` for CLO
and CLZ), to the instruction its fields give; it is reserved exactly when it is a CLO or CLZ word with `rt` and `rd` different, or fits no row in
force but has the opcode fields of a row in force; every other word is unsupported. -/
def Obligations.DecoderClassifiesEveryWord : Prop :=
  ∀ (P : Params) (w : Word),
    (∀ i, decode P w = .instr i ↔
      ∃ r ∈ opcodeRows, P.admits r.kind = true ∧ w &&& r.mask = r.pattern ∧
        ((r.kind = .clo ∨ r.kind = .clz) → rtField w = rdField w) ∧ i = instrOfFields w r.kind) ∧
    (decode P w = .reserved w ↔
      (∃ r ∈ opcodeRows, P.admits r.kind = true ∧ w &&& r.mask = r.pattern ∧ (r.kind = .clo ∨ r.kind = .clz) ∧ rtField w ≠ rdField w) ∨
      ((∀ r ∈ opcodeRows, P.admits r.kind = true → w &&& r.mask ≠ r.pattern) ∧
        ∃ r ∈ opcodeRows, P.admits r.kind = true ∧ w &&& r.select = r.pattern &&& r.select)) ∧
    ((∃ i, decode P w = .instr i) ∨ decode P w = .reserved w ∨ decode P w = .unsupported w)

/-- From R59: the zero word. -/
def Obligations.ZeroWordIsSllOnlyWithShifts : Prop :=
  ∀ P : Params, decode P 0x00000000#32 = if P.extShift = true then .instr (.sll 0 0 0) else .unsupported 0x00000000#32

/-- Decoding the encoded word of every instruction in force gives it back, with every operand. -/
def Obligations.DecodeOfEncodeIsIdentity : Prop :=
  ∀ (P : Params) (i : Instr), i.wellFormed P = true → decode P (encode i) = .instr i

/-- A word the decoder accepts is the one word of the instruction it stands for: no bit of it is ignored. -/
def Obligations.EncodeOfDecodeIsTheWord : Prop :=
  ∀ (P : Params) (w : Word) (i : Instr), decode P w = .instr i → encode i = w ∧ i.wellFormed P = true

/-- Some words of 95_test_vectors.md section 9. -/
def Obligations.VectorWordsDecodeAsTheSpecSays : Prop :=
  decode Params.defaults 0x00221820#32 = .instr (.add 1 2 3) ∧
  decode Params.defaults 0x2423FFFF#32 = .instr (.addiu 1 0xFFFF#16 3) ∧
  decode Params.defaults 0x70221020#32 = .instr (.clz 1 2) ∧
  decode Params.defaults 0x7C011620#32 = .instr (.seh 1 2) ∧
  decode Params.defaults 0x70220005#32 = .instr (.msubu 1 2) ∧
  decode Params.defaults 0x0022001B#32 = .instr (.divu 1 2) ∧
  decode { Params.defaults with extShift := true } 0x00211102#32 = .instr (.rotr 1 2 4) ∧
  decode { Params.defaults with extSub := true } 0x00221822#32 = .instr (.sub 1 2 3) ∧
  decode Params.defaults 0x00221860#32 = .reserved 0x00221860#32 ∧
  decode Params.defaults 0x70231020#32 = .reserved 0x70231020#32 ∧
  decode Params.defaults 0x0022182A#32 = .unsupported 0x0022182A#32

/-! ### The command interface -/

/-- R81, with the order of R226: what construct answers for every name and every operand values. -/
def Obligations.ConstructChecksThenAppends : Prop :=
  ∀ (s : State) (k : KindName) (v : OperandValues) (rest : List Command), s.status = .running → s.commands = .construct k v :: rest →
    ((∀ kind, k = .known kind → s.params.admits kind = false) →
      ∃ t, step s = .next t ∧ TurnedAway s rest (.refused (.unsupportedKind k)) t) ∧
    (∀ kind, k = .known kind → s.params.admits kind = true →
      (∀ pre n post, registerValues v kind = pre ++ n :: post → (∀ m ∈ pre, 0 ≤ m ∧ m ≤ 31) → ¬ (0 ≤ n ∧ n ≤ 31) →
        ∃ t, step s = .next t ∧ TurnedAway s rest (.faulted (.contractIndex n)) t) ∧
      ((∀ m ∈ registerValues v kind, 0 ≤ m ∧ m ≤ 31) → (kind = .addi ∨ kind = .addiu) → ¬ (-32768 ≤ v.imm ∧ v.imm ≤ 32767) →
        ∃ t, step s = .next t ∧ TurnedAway s rest (.faulted (.contractImmediate v.imm)) t) ∧
      ((∀ m ∈ registerValues v kind, 0 ≤ m ∧ m ≤ 31) → (kind = .sll ∨ kind = .srl ∨ kind = .sra ∨ kind = .rotr) →
        ¬ (0 ≤ v.sa ∧ v.sa ≤ 31) → ∃ t, step s = .next t ∧ TurnedAway s rest (.faulted (.contractShiftAmount v.sa)) t) ∧
      ((∀ m ∈ registerValues v kind, 0 ≤ m ∧ m ≤ 31) → ((kind = .addi ∨ kind = .addiu) → -32768 ≤ v.imm ∧ v.imm ≤ 32767) →
        ((kind = .sll ∨ kind = .srl ∨ kind = .sra ∨ kind = .rotr) → 0 ≤ v.sa ∧ v.sa ≤ 31) →
        ∃ i, i.kind = kind ∧ HasValues v i ∧
          step s = .next { s with commands := rest, insts := s.insts ++ [{ instr := i, slot := .empty, live := false }],
                                  out := { trap := false, result := .handle s.insts.length } }))

/-- R82: what execute does around the rule of its instance: the unknown handle, the rule's fault, and the slot, the live bits and the trap
output of an execute that completes. -/
def Obligations.StepRunsTheInstanceOfTheHandle : Prop :=
  ∀ (s : State) (h : Nat) (rest : List Command), s.status = .running → s.commands = .execute h :: rest →
    (s.insts[h]? = none → ∃ t, step s = .next t ∧ TurnedAway s rest (.faulted (.contractHandle h)) t) ∧
    (∀ o, s.insts[h]? = some o →
      (∀ f, exec o.instr { s with commands := rest, out := Output.quiet } = .fault f →
        ∃ t, step s = .next t ∧ TurnedAway s rest (.faulted f) t) ∧
      (∀ u, exec o.instr { s with commands := rest, out := Output.quiet } = .next u →
        ∃ t, step s = .next t ∧ SameRegisters u t ∧ t.ovfCount = u.ovfCount ∧ t.out = u.out ∧ t.status = .running ∧
          ((t.ovfCount = s.ovfCount + 1 ∧ t.out.trap = true) ∨ (t.ovfCount = s.ovfCount ∧ t.out.trap = false)) ∧
          t.params = s.params ∧ t.commands = rest ∧ t.insts.length = s.insts.length ∧
          t.insts[h]? = some { o with live := true, slot := match destOf o.instr with
            | .reg d => .reg d (s.readReg d)
            | .hiLo => .pair s.HI s.LO } ∧
          ∀ (g : Nat) (p : Operation), g ≠ h → s.insts[g]? = some p →
            t.insts[g]? = some { p with live := if u.out.trap = false ∧ destOf p.instr = destOf o.instr then false else p.live }))

/-- The two commands by which a driver runs an instruction word (30_encoding.md R60 with R81, then R82). The decode appends the instance of the
decoded instruction, with an empty slot and `live` false, hands back its handle and changes nothing else; after the execute, registers, trap
record and outcome are those of the decoded instruction's rule, and an execute that faults changes nothing but the status. -/
def Obligations.DecodeThenExecuteRunsTheWord : Prop :=
  ∀ (s : State) (w : Word) (i : Instr) (rest : List Command), s.status = .running → s.commands = .decode w :: rest →
    decode s.params w = .instr i →
    ∃ m, step s = .next m ∧
      m = { s with commands := rest, insts := s.insts ++ [{ instr := i, slot := .empty, live := false }],
                   out := { trap := false, result := .handle s.insts.length } } ∧
      ∀ later, rest = .execute s.insts.length :: later →
        (∀ u, exec i s = .next u → ∃ t, step m = .next t ∧ t.status = .running ∧ SameRegisters u t ∧ t.ovfCount = u.ovfCount ∧
          t.commands = later) ∧
        (∀ f, exec i s = .fault f → ∃ t, step m = .next t ∧ TurnedAway m later (.faulted f) t)

/-- The entry of log 7: a word made next is run by the very next step. -/
def Obligations.WordMadeNextIsRunNext : Prop :=
  ∀ (s : State) (w : Word) (i : Instr), s.status = .running → decode (s.params.admitting w) w = .instr i →
    (∀ u, exec i { s with params := s.params.admitting w } = .next u →
      ∃ t, step (s.withFetchWord 32 w.toNat) = .next t ∧ t.status = .running ∧ SameRegisters u t ∧ t.ovfCount = u.ovfCount) ∧
    (∀ f, exec i { s with params := s.params.admitting w } = .fault f →
      ∃ t, step (s.withFetchWord 32 w.toNat) = .next t ∧ t.status = .faulted f ∧ SameRegisters s t)

/-- R84: what reverse does: the unknown handle, the instance that is not live, and the restore. -/
def Obligations.ReverseRestoresTheSlot : Prop :=
  ∀ (s : State) (h : Nat) (rest : List Command), s.status = .running → s.commands = .reverse h :: rest →
    (s.insts[h]? = none → ∃ t, step s = .next t ∧ TurnedAway s rest (.faulted (.contractHandle h)) t) ∧
    (∀ o, s.insts[h]? = some o →
      (o.live = false → ∃ t, step s = .next t ∧ TurnedAway s rest (.faulted (.contractReverse h)) t) ∧
      (o.live = true → o.slot ≠ .empty → o.slot.fits (destOf o.instr) →
        ∃ t, step s = .next t ∧ t.status = .running ∧ t.ovfCount = s.ovfCount ∧ t.out = Output.quiet ∧ t.params = s.params ∧
          t.commands = rest ∧
          (∀ d v, o.slot = .reg d v → t.readReg d = v ∧ (∀ r, r ≠ d → t.readReg r = s.readReg r) ∧ t.HI = s.HI ∧ t.LO = s.LO) ∧
          (∀ hi lo, o.slot = .pair hi lo → t.HI = hi ∧ t.LO = lo ∧ ∀ r, t.readReg r = s.readReg r) ∧
          t.insts[h]? = some { o with slot := .empty, live := false } ∧
          ∀ (g : Nat) (p : Operation), g ≠ h → s.insts[g]? = some p →
            t.insts[g]? = some { p with live := if destOf p.instr = destOf o.instr then false else p.live }))

/-- An execute that completes, followed at once by its reverse, leaves every register, HI and LO as before the execute; the trap record
keeps the execute's increment. This is the inference that the spec marks as its own under R85 ("derived: from rule R82, rule R83 and
rule R84"). -/
def Obligations.ExecuteThenReverseRestoresRegisters : Prop :=
  ∀ (s t : State) (h : Nat) (rest : List Command), s.commands = .execute h :: .reverse h :: rest → step s = .next t →
    t.status = .running →
    ∃ u, step t = .next u ∧ u.status = .running ∧ SameRegisters s u ∧ u.ovfCount = t.ovfCount

/-- R86: the encode accessor is a stub: for a known handle it raises NotImplemented and changes no other state. -/
def Obligations.EncodeAccessorIsAStub : Prop :=
  ∀ (s : State) (h : Nat) (o : Operation) (rest : List Command), s.status = .running → s.commands = .encode h :: rest →
    s.insts[h]? = some o → ∃ t, step s = .next t ∧ TurnedAway s rest (.faulted (.notImplementedEncode h)) t

/-- R87: the six register commands. -/
def Obligations.RegisterCommandsReadAndWriteWords : Prop :=
  ∀ (s : State) (rest : List Command), s.status = .running →
    (∀ i, s.commands = .read i :: rest →
      (¬ (0 ≤ i ∧ i ≤ 31) → ∃ t, step s = .next t ∧ TurnedAway s rest (.faulted (.contractIndex i)) t) ∧
      (∀ r : Reg, i = r.val → step s = .next { s with commands := rest, out := { trap := false, result := .word (s.readReg r) } })) ∧
    (∀ i w, s.commands = .write i w :: rest →
      (¬ (0 ≤ i ∧ i ≤ 31) → ∃ t, step s = .next t ∧ TurnedAway s rest (.faulted (.contractIndex i)) t) ∧
      (∀ r : Reg, i = r.val → ∃ t, step s = .next t ∧ t.status = .running ∧ t.readReg r = w ∧ (∀ q, q ≠ r → t.readReg q = s.readReg q) ∧
        t.HI = s.HI ∧ t.LO = s.LO ∧ t.ovfCount = s.ovfCount ∧ t.params = s.params ∧ t.commands = rest ∧
        ∀ (g : Nat) (p : Operation), s.insts[g]? = some p →
          t.insts[g]? = some { p with live := if destOf p.instr = .reg r then false else p.live })) ∧
    (s.commands = .readHI :: rest → step s = .next { s with commands := rest, out := { trap := false, result := .word s.HI } }) ∧
    (s.commands = .readLO :: rest → step s = .next { s with commands := rest, out := { trap := false, result := .word s.LO } }) ∧
    (∀ w, s.commands = .writeHI w :: rest → ∃ t, step s = .next t ∧ t.status = .running ∧ t.HI = w ∧ t.LO = s.LO ∧
      (∀ q, t.readReg q = s.readReg q) ∧ t.ovfCount = s.ovfCount ∧ t.params = s.params ∧ t.commands = rest ∧
      ∀ (g : Nat) (p : Operation), s.insts[g]? = some p →
        t.insts[g]? = some { p with live := if destOf p.instr = .hiLo then false else p.live }) ∧
    (∀ w, s.commands = .writeLO w :: rest → ∃ t, step s = .next t ∧ t.status = .running ∧ t.LO = w ∧ t.HI = s.HI ∧
      (∀ q, t.readReg q = s.readReg q) ∧ t.ovfCount = s.ovfCount ∧ t.params = s.params ∧ t.commands = rest ∧
      ∀ (g : Nat) (p : Operation), s.insts[g]? = some p →
        t.insts[g]? = some { p with live := if destOf p.instr = .hiLo then false else p.live })

/-- R89: an execute depends on the registers and the parameters alone: two blocks that agree on those give the same fault, or the same
registers, the same signals and the same writes, whatever their instances, outputs and counts. -/
def Obligations.ExecuteDependsOnRegistersAndParametersOnly : Prop :=
  ∀ (i : Instr) (s s' : State), SameRegisters s s' → s'.params = s.params →
    (∀ f, exec i s = .fault f → exec i s' = .fault f) ∧
    (∀ t, exec i s = .next t → ∃ t', exec i s' = .next t' ∧ SameRegisters t t' ∧ t'.ovfCount + s.ovfCount = t.ovfCount + s'.ovfCount)

/-! ### The instructions -/

/-- R99, an inference the spec marks as its own ("derived: from the definition of sint"): signed overflow of a 32-bit add,
in its two forms, and the agreement of the trapping and wrapping sums. -/
def Obligations.SignedOverflowIsASignChange : Prop :=
  ∀ a b : Word,
    (signedOverflow (a.toInt + b.toInt) = true ↔ a.toInt + b.toInt < -2 ^ 31 ∨ a.toInt + b.toInt > 2 ^ 31 - 1) ∧
    (signedOverflow (a.toInt + b.toInt) = true ↔
      a.getLsbD 31 = b.getLsbD 31 ∧ (BitVec.ofNat 32 (a.toNat + b.toNat)).getLsbD 31 ≠ a.getLsbD 31) ∧
    (signedOverflow (a.toInt + b.toInt) = false → BitVec.ofInt 32 (a.toInt + b.toInt) = BitVec.ofNat 32 (a.toNat + b.toNat))

/-- R100, R101: ADD. -/
def Obligations.AddWritesExactSumOrTraps : Prop :=
  DecodesAs (fun _ => True) 0xFC0007FF#32 0x00000020#32 (fun w => .add (rsField w) (rtField w) (rdField w)) ∧
  ∀ (rs rt rd : Reg) (s : State),
    (-2 ^ 31 ≤ (s.readReg rs).toInt + (s.readReg rt).toInt → (s.readReg rs).toInt + (s.readReg rt).toInt ≤ 2 ^ 31 - 1 →
      ∃ t, exec (.add rs rt rd) s = .next t ∧ (t.readReg rd).toInt = (s.readReg rs).toInt + (s.readReg rt).toInt ∧
        OnlyRegChanged rd s t) ∧
    ((s.readReg rs).toInt + (s.readReg rt).toInt < -2 ^ 31 ∨ (s.readReg rs).toInt + (s.readReg rt).toInt > 2 ^ 31 - 1 →
      ∃ t, exec (.add rs rt rd) s = .next t ∧ OnlyTrapSignalled s t) ∧
    (∀ h o, s.insts[h]? = some o → o.instr = .add rs rt rd →
      ∃ t, s.execute h = .next t ∧ t.insts[h]? = some { o with slot := .reg rd (s.readReg rd), live := true })

/-- R102: ADDI. -/
def Obligations.AddiWritesExactSumOrTraps : Prop :=
  DecodesAs (fun _ => True) 0xFC000000#32 0x20000000#32 (fun w => .addi (rsField w) (imm16Field w) (rtField w)) ∧
  ∀ (rs : Reg) (imm16 : BitVec 16) (rt : Reg) (s : State),
    (-2 ^ 31 ≤ (s.readReg rs).toInt + imm16.toInt → (s.readReg rs).toInt + imm16.toInt ≤ 2 ^ 31 - 1 →
      ∃ t, exec (.addi rs imm16 rt) s = .next t ∧ (t.readReg rt).toInt = (s.readReg rs).toInt + imm16.toInt ∧
        OnlyRegChanged rt s t) ∧
    ((s.readReg rs).toInt + imm16.toInt < -2 ^ 31 ∨ (s.readReg rs).toInt + imm16.toInt > 2 ^ 31 - 1 →
      ∃ t, exec (.addi rs imm16 rt) s = .next t ∧ OnlyTrapSignalled s t) ∧
    (∀ h o, s.insts[h]? = some o → o.instr = .addi rs imm16 rt →
      ∃ t, s.execute h = .next t ∧ t.insts[h]? = some { o with slot := .reg rt (s.readReg rt), live := true })

/-- R104: ADDIU. -/
def Obligations.AddiuWrapsAndNeverTraps : Prop :=
  DecodesAs (fun _ => True) 0xFC000000#32 0x24000000#32 (fun w => .addiu (rsField w) (imm16Field w) (rtField w)) ∧
  ∀ (rs : Reg) (imm16 : BitVec 16) (rt : Reg) (s : State),
    ∃ t, exec (.addiu rs imm16 rt) s = .next t ∧ OnlyRegChanged rt s t ∧
      (t.readReg rt).toNat = ((s.readReg rs).toNat + (imm16.signExtend 32).toNat) % 2 ^ 32

/-- R106: ADDU. -/
def Obligations.AdduWrapsAndNeverTraps : Prop :=
  DecodesAs (fun _ => True) 0xFC0007FF#32 0x00000021#32 (fun w => .addu (rsField w) (rtField w) (rdField w)) ∧
  ∀ (rs rt rd : Reg) (s : State),
    ∃ t, exec (.addu rs rt rd) s = .next t ∧ OnlyRegChanged rd s t ∧
      (t.readReg rd).toNat = ((s.readReg rs).toNat + (s.readReg rt).toNat) % 2 ^ 32

/-- R120: CLO. The result is the number of consecutive one bits from bit 31 downward. -/
def Obligations.CloCountsLeadingOnes : Prop :=
  (∀ (P : Params) (w : Word), w &&& 0xFC0007FF#32 = 0x70000021#32 →
    (rtField w = rdField w → decode P w = .instr (.clo (rsField w) (rdField w))) ∧
    (rtField w ≠ rdField w → decode P w = .reserved w)) ∧
  ∀ (rs rd : Reg) (s : State),
    ∃ t, exec (.clo rs rd) s = .next t ∧ OnlyRegChanged rd s t ∧ (t.readReg rd).toNat ≤ 32 ∧
      (∀ j, j < (t.readReg rd).toNat → (s.readReg rs).getLsbD (31 - j) = true) ∧
      ((t.readReg rd).toNat < 32 → (s.readReg rs).getLsbD (31 - (t.readReg rd).toNat) = false)

/-- R122: CLZ. The result is the number of consecutive zero bits from bit 31 downward. -/
def Obligations.ClzCountsLeadingZeros : Prop :=
  (∀ (P : Params) (w : Word), w &&& 0xFC0007FF#32 = 0x70000020#32 →
    (rtField w = rdField w → decode P w = .instr (.clz (rsField w) (rdField w))) ∧
    (rtField w ≠ rdField w → decode P w = .reserved w)) ∧
  ∀ (rs rd : Reg) (s : State),
    ∃ t, exec (.clz rs rd) s = .next t ∧ OnlyRegChanged rd s t ∧ (t.readReg rd).toNat ≤ 32 ∧
      (∀ j, j < (t.readReg rd).toNat → (s.readReg rs).getLsbD (31 - j) = false) ∧
      ((t.readReg rd).toNat < 32 → (s.readReg rs).getLsbD (31 - (t.readReg rd).toNat) = true)

/-- R124: SEB. The low 8 bits of `rt` are kept and bit 7 is copied above them. -/
def Obligations.SebSignExtendsTheByte : Prop :=
  DecodesAs (fun _ => True) 0xFFE007FF#32 0x7C000420#32 (fun w => .seb (rtField w) (rdField w)) ∧
  ∀ (rt rd : Reg) (s : State),
    ∃ t, exec (.seb rt rd) s = .next t ∧ OnlyRegChanged rd s t ∧
      ∀ j, j < 32 → (t.readReg rd).getLsbD j = (s.readReg rt).getLsbD (if j < 8 then j else 7)

/-- R126: SEH. The low 16 bits of `rt` are kept and bit 15 is copied above them. -/
def Obligations.SehSignExtendsTheHalfword : Prop :=
  DecodesAs (fun _ => True) 0xFFE007FF#32 0x7C000620#32 (fun w => .seh (rtField w) (rdField w)) ∧
  ∀ (rt rd : Reg) (s : State),
    ∃ t, exec (.seh rt rd) s = .next t ∧ OnlyRegChanged rd s t ∧
      ∀ j, j < 32 → (t.readReg rd).getLsbD j = (s.readReg rt).getLsbD (if j < 16 then j else 15)

/-- R140: MUL. The second multiplicand and the kept width are the parameters'; HI and LO are untouched. -/
def Obligations.MulKeepsLowProductBits : Prop :=
  DecodesAs (fun _ => True) 0xFC0007FF#32 0x70000002#32 (fun w => .mul (rsField w) (rtField w) (rdField w)) ∧
  ∀ (rs rt rd : Reg) (s : State),
    ∃ t c, exec (.mul rs rt rd) s = .next t ∧ OnlyRegChanged rd s t ∧
      (s.params.mulSecond = .rd → c = s.readReg rd) ∧ (s.params.mulSecond = .rt → c = s.readReg rt) ∧
      (s.params.mulWidth = .low16 → (t.readReg rd).toNat = (s.readReg rs).toNat * c.toNat % 2 ^ 16) ∧
      (s.params.mulWidth = .low32 → (t.readReg rd).toNat = (s.readReg rs).toNat * c.toNat % 2 ^ 32)

/-- R140: with the default second multiplicand MUL does not read `rt`: blocks that differ only in that register get the same product. -/
def Obligations.MulIgnoresRtByDefault : Prop :=
  ∀ (rs rt rd : Reg) (v : Word) (s : State), s.params.mulSecond = .rd → rt ≠ rs → rt ≠ rd →
    ∃ t t', exec (.mul rs rt rd) s = .next t ∧ exec (.mul rs rt rd) (s.writeReg rt v) = .next t' ∧
      t'.readReg rd = t.readReg rd ∧ t'.readReg rt = v ∧ t.readReg rt = s.readReg rt

/-- R142: the six instructions of the HI:LO family compute one 64-bit pattern, from exact products and modulo 2^64, and write it to HI and LO,
where under `P_LO_MASK16` bits 31:16 of LO are 0. -/
def Obligations.AccumulatorFamilyWritesThroughTheMask : Prop :=
  ∀ (rs rt : Reg) (s : State) (i : Instr) (n : Int),
    ((i = .mult rs rt ∧ n = (s.readReg rs).toInt * (s.readReg rt).toInt) ∨
     (i = .multu rs rt ∧ n = (s.readReg rs).toNat * (s.readReg rt).toNat) ∨
     (i = .madd rs rt ∧ n = (s.HI ++ s.LO).toNat + (s.readReg rs).toInt * (s.readReg rt).toInt) ∨
     (i = .maddu rs rt ∧ n = (s.HI ++ s.LO).toNat + (s.readReg rs).toNat * (s.readReg rt).toNat) ∨
     (i = .msub rs rt ∧ n = (s.HI ++ s.LO).toNat - (s.readReg rs).toInt * (s.readReg rt).toInt) ∨
     (i = .msubu rs rt ∧ n = (s.HI ++ s.LO).toNat - ((s.readReg rs).toNat * (s.readReg rt).toNat : Int))) →
    ∃ t, exec i s = .next t ∧ OnlyPairChanged s t ∧ (t.HI.toNat : Int) = n % 2 ^ 64 / 2 ^ 32 ∧
      (s.params.loMask16 = true → (t.LO.toNat : Int) = n % 2 ^ 16 ∧ t.LO.toNat < 2 ^ 16) ∧
      (s.params.loMask16 = false → (t.LO.toNat : Int) = n % 2 ^ 32)

/-- R144: MULT. The 64-bit pattern is the exact signed product. -/
def Obligations.MultWritesSignedProduct : Prop :=
  DecodesAs (fun _ => True) 0xFC00FFFF#32 0x00000018#32 (fun w => .mult (rsField w) (rtField w)) ∧
  ∀ (rs rt : Reg) (s : State),
    ∃ t R, exec (.mult rs rt) s = .next t ∧ OnlyPairChanged s t ∧ HoldsAcc s.params R t ∧
      R.toInt = (s.readReg rs).toInt * (s.readReg rt).toInt

/-- R146: MULTU. The 64-bit pattern is the exact unsigned product. -/
def Obligations.MultuWritesUnsignedProduct : Prop :=
  DecodesAs (fun _ => True) 0xFC00FFFF#32 0x00000019#32 (fun w => .multu (rsField w) (rtField w)) ∧
  ∀ (rs rt : Reg) (s : State),
    ∃ t R, exec (.multu rs rt) s = .next t ∧ OnlyPairChanged s t ∧ HoldsAcc s.params R t ∧
      R.toNat = (s.readReg rs).toNat * (s.readReg rt).toNat

/-- R148: MADD. The signed product is added to the pair modulo 2^64. -/
def Obligations.MaddAddsSignedProduct : Prop :=
  DecodesAs (fun _ => True) 0xFC00FFFF#32 0x70000000#32 (fun w => .madd (rsField w) (rtField w)) ∧
  ∀ (rs rt : Reg) (s : State),
    ∃ t R, exec (.madd rs rt) s = .next t ∧ OnlyPairChanged s t ∧ HoldsAcc s.params R t ∧
      (R.toNat : Int) = ((s.HI ++ s.LO).toNat + (s.readReg rs).toInt * (s.readReg rt).toInt) % 2 ^ 64

/-- R150: MADDU. The unsigned product is added to the pair modulo 2^64. -/
def Obligations.MadduAddsUnsignedProduct : Prop :=
  DecodesAs (fun _ => True) 0xFC00FFFF#32 0x70000001#32 (fun w => .maddu (rsField w) (rtField w)) ∧
  ∀ (rs rt : Reg) (s : State),
    ∃ t R, exec (.maddu rs rt) s = .next t ∧ OnlyPairChanged s t ∧ HoldsAcc s.params R t ∧
      R.toNat = ((s.HI ++ s.LO).toNat + (s.readReg rs).toNat * (s.readReg rt).toNat) % 2 ^ 64

/-- R152: MSUB. The signed product is subtracted from the pair modulo 2^64. -/
def Obligations.MsubSubtractsSignedProduct : Prop :=
  DecodesAs (fun _ => True) 0xFC00FFFF#32 0x70000004#32 (fun w => .msub (rsField w) (rtField w)) ∧
  ∀ (rs rt : Reg) (s : State),
    ∃ t R, exec (.msub rs rt) s = .next t ∧ OnlyPairChanged s t ∧ HoldsAcc s.params R t ∧
      (R.toNat : Int) = ((s.HI ++ s.LO).toNat - (s.readReg rs).toInt * (s.readReg rt).toInt) % 2 ^ 64

/-- R154: MSUBU. The unsigned product is subtracted from the pair modulo 2^64. -/
def Obligations.MsubuSubtractsUnsignedProduct : Prop :=
  DecodesAs (fun _ => True) 0xFC00FFFF#32 0x70000005#32 (fun w => .msubu (rsField w) (rtField w)) ∧
  ∀ (rs rt : Reg) (s : State),
    ∃ t R, exec (.msubu rs rt) s = .next t ∧ OnlyPairChanged s t ∧ HoldsAcc s.params R t ∧
      (R.toNat : Int) = (((s.HI ++ s.LO).toNat : Int) - (s.readReg rs).toNat * (s.readReg rt).toNat) % 2 ^ 64

/-- R172, with R170 and R171: DIV. Quotient and remainder are the truncated ones: the dividend is recovered, the remainder is smaller than
the divisor and is 0 or has the dividend's sign. -/
def Obligations.DivWritesTruncatedQuotientAndRemainder : Prop :=
  DecodesAs (fun _ => True) 0xFC00FFFF#32 0x0000001A#32 (fun w => .div (rsField w) (rtField w)) ∧
  ∀ (rs rt : Reg) (s : State),
    (s.readReg rt = 0#32 → exec (.div rs rt) s = .fault (.divideByZero rs rt)) ∧
    (s.readReg rs = 0x80000000#32 → s.readReg rt = 0xFFFFFFFF#32 →
      (s.params.divOvf = .fault → exec (.div rs rt) s = .fault (.divideOverflow rs rt)) ∧
      (s.params.divOvf = .wrap → ∃ t, exec (.div rs rt) s = .next t ∧ OnlyPairChanged s t ∧
        Placed s.params.divPlace 0x80000000#32 0x00000000#32 t)) ∧
    (s.readReg rt ≠ 0#32 → ¬ (s.readReg rs = 0x80000000#32 ∧ s.readReg rt = 0xFFFFFFFF#32) →
      ∃ t q r, exec (.div rs rt) s = .next t ∧ OnlyPairChanged s t ∧ Placed s.params.divPlace q r t ∧
        (s.readReg rs).toInt = (s.readReg rt).toInt * q.toInt + r.toInt ∧ r.toInt.natAbs < (s.readReg rt).toInt.natAbs ∧
        (r.toInt = 0 ∨ (r.toInt < 0 ↔ (s.readReg rs).toInt < 0)))

/-- R174, with R170 and R171: DIVU. -/
def Obligations.DivuWritesFloorQuotientAndRemainder : Prop :=
  DecodesAs (fun _ => True) 0xFC00FFFF#32 0x0000001B#32 (fun w => .divu (rsField w) (rtField w)) ∧
  ∀ (rs rt : Reg) (s : State),
    (s.readReg rt = 0#32 → exec (.divu rs rt) s = .fault (.divideByZero rs rt)) ∧
    (s.readReg rt ≠ 0#32 →
      ∃ t q r, exec (.divu rs rt) s = .next t ∧ OnlyPairChanged s t ∧ Placed s.params.divuPlace q r t ∧
        (s.readReg rs).toNat = (s.readReg rt).toNat * q.toNat + r.toNat ∧ r.toNat < (s.readReg rt).toNat)

/-- R171: an execute of DIV or DIVU with a zero divisor faults and writes nothing: no register, no slot, no live bit. -/
def Obligations.DivisionByZeroWritesNothing : Prop :=
  ∀ (s : State) (h : Nat) (o : Operation) (rs rt : Reg) (rest : List Command), s.status = .running → s.commands = .execute h :: rest →
    s.insts[h]? = some o → (o.instr = .div rs rt ∨ o.instr = .divu rs rt) → s.readReg rt = 0#32 →
    ∃ t, step s = .next t ∧ TurnedAway s rest (.faulted (.divideByZero rs rt)) t

/-- R192: SUB. -/
def Obligations.SubWritesExactDifferenceOrTraps : Prop :=
  DecodesAs (fun P => P.extSub = true) 0xFC0007FF#32 0x00000022#32 (fun w => .sub (rsField w) (rtField w) (rdField w)) ∧
  RefusedWhile (fun P => P.extSub = false) 0xFC0007FF#32 0x00000022#32 ∧
  ∀ (rs rt rd : Reg) (s : State),
    (-2 ^ 31 ≤ (s.readReg rs).toInt - (s.readReg rt).toInt → (s.readReg rs).toInt - (s.readReg rt).toInt ≤ 2 ^ 31 - 1 →
      ∃ t, exec (.sub rs rt rd) s = .next t ∧ (t.readReg rd).toInt = (s.readReg rs).toInt - (s.readReg rt).toInt ∧
        OnlyRegChanged rd s t) ∧
    ((s.readReg rs).toInt - (s.readReg rt).toInt < -2 ^ 31 ∨ (s.readReg rs).toInt - (s.readReg rt).toInt > 2 ^ 31 - 1 →
      ∃ t, exec (.sub rs rt rd) s = .next t ∧ OnlyTrapSignalled s t) ∧
    (∀ h o, s.insts[h]? = some o → o.instr = .sub rs rt rd →
      ∃ t, s.execute h = .next t ∧ t.insts[h]? = some { o with slot := .reg rd (s.readReg rd), live := true })

/-- R194: SUBU. -/
def Obligations.SubuWrapsAndNeverTraps : Prop :=
  DecodesAs (fun P => P.extSub = true) 0xFC0007FF#32 0x00000023#32 (fun w => .subu (rsField w) (rtField w) (rdField w)) ∧
  RefusedWhile (fun P => P.extSub = false) 0xFC0007FF#32 0x00000023#32 ∧
  ∀ (rs rt rd : Reg) (s : State),
    ∃ t, exec (.subu rs rt rd) s = .next t ∧ OnlyRegChanged rd s t ∧
      ((t.readReg rd).toNat : Int) = (((s.readReg rs).toNat : Int) - (s.readReg rt).toNat) % 2 ^ 32

/-- R200: SLL. The value times 2^sa, modulo 2^32. -/
def Obligations.SllMultipliesByPowerOfTwo : Prop :=
  DecodesAs (fun P => P.extShift = true) 0xFFE0003F#32 0x00000000#32 (fun w => .sll (rtField w) (rdField w) (saField w)) ∧
  RefusedWhile (fun P => P.extShift = false) 0xFFE0003F#32 0x00000000#32 ∧
  ∀ (rt rd : Reg) (sa : ShiftAmount) (s : State),
    ∃ t, exec (.sll rt rd sa) s = .next t ∧ OnlyRegChanged rd s t ∧
      (t.readReg rd).toNat = (s.readReg rt).toNat * 2 ^ sa.val % 2 ^ 32

/-- R202: SRL. Bit j of the result is bit j + sa, or 0 past bit 31. -/
def Obligations.SrlMovesBitsDownOverZeros : Prop :=
  DecodesAs (fun P => P.extShift = true) 0xFFE0003F#32 0x00000002#32 (fun w => .srl (rtField w) (rdField w) (saField w)) ∧
  RefusedWhile (fun P => P.extShift = false) 0xFFE0003F#32 0x00000002#32 ∧
  ∀ (rt rd : Reg) (sa : ShiftAmount) (s : State),
    ∃ t, exec (.srl rt rd sa) s = .next t ∧ OnlyRegChanged rd s t ∧
      ∀ j, j < 32 → (t.readReg rd).getLsbD j = if j + sa.val < 32 then (s.readReg rt).getLsbD (j + sa.val) else false

/-- R204: SRA. Bit j of the result is bit j + sa, or bit 31 past bit 31. -/
def Obligations.SraMovesBitsDownOverTheSign : Prop :=
  DecodesAs (fun P => P.extShift = true) 0xFFE0003F#32 0x00000003#32 (fun w => .sra (rtField w) (rdField w) (saField w)) ∧
  RefusedWhile (fun P => P.extShift = false) 0xFFE0003F#32 0x00000003#32 ∧
  ∀ (rt rd : Reg) (sa : ShiftAmount) (s : State),
    ∃ t, exec (.sra rt rd sa) s = .next t ∧ OnlyRegChanged rd s t ∧
      ∀ j, j < 32 → (t.readReg rd).getLsbD j = if j + sa.val < 32 then (s.readReg rt).getLsbD (j + sa.val) else (s.readReg rt).getLsbD 31

/-- R206: ROTR. Bit j of the result is bit j + sa, counted around. -/
def Obligations.RotrRotatesBitsDown : Prop :=
  DecodesAs (fun P => P.extShift = true) 0xFFE0003F#32 0x00200002#32 (fun w => .rotr (rtField w) (rdField w) (saField w)) ∧
  RefusedWhile (fun P => P.extShift = false) 0xFFE0003F#32 0x00200002#32 ∧
  ∀ (rt rd : Reg) (sa : ShiftAmount) (s : State),
    ∃ t, exec (.rotr rt rd sa) s = .next t ∧ OnlyRegChanged rd s t ∧
      ∀ j, j < 32 → (t.readReg rd).getLsbD j = if j + sa.val < 32 then (s.readReg rt).getLsbD (j + sa.val) else (s.readReg rt).getLsbD (j + sa.val - 32)

/-! ### Traps, faults and refusals -/

/-- R221: an execute that gives the overflow trap signal writes no general-purpose register, HI or LO; it saves the slot and sets `live`; no other
instance loses its `live` bit; and the block goes on running. -/
def Obligations.TrappingExecuteCompletesWithoutWriting : Prop :=
  ∀ (s : State) (h : Nat) (o : Operation) (rest : List Command) (d : Reg), s.status = .running → s.commands = .execute h :: rest →
    s.insts[h]? = some o →
    ((∃ rs rt, o.instr = .add rs rt d ∧ signedOverflow ((s.readReg rs).toInt + (s.readReg rt).toInt) = true) ∨
     (∃ rs imm16, o.instr = .addi rs imm16 d ∧ signedOverflow ((s.readReg rs).toInt + imm16.toInt) = true) ∨
     (∃ rs rt, o.instr = .sub rs rt d ∧ signedOverflow ((s.readReg rs).toInt - (s.readReg rt).toInt) = true)) →
    ∃ t, step s = .next t ∧ t.status = .running ∧ SameRegisters s t ∧ t.ovfCount = s.ovfCount + 1 ∧ t.out.trap = true ∧
      t.insts[h]? = some { o with slot := .reg d (s.readReg d), live := true } ∧
      (∀ g, g ≠ h → t.insts[g]? = s.insts[g]?) ∧ t.params = s.params ∧ t.commands = rest

/-- R224: the table of faults, each with what it records, and that a command that faults writes no register, no slot, no `live` bit and no trap
record (`TurnedAway`). -/
def Obligations.FaultTableWritesNothingButStatus : Prop :=
  ∀ (s : State) (c : Command) (rest : List Command), s.status = .running → s.commands = c :: rest →
    (∀ i, (c = .read i ∨ ∃ w, c = .write i w) → ¬ (0 ≤ i ∧ i ≤ 31) →
      ∃ t, step s = .next t ∧ TurnedAway s rest (.faulted (.contractIndex i)) t) ∧
    (∀ kind v, c = .construct (.known kind) v → s.params.admits kind = true → (∃ n ∈ registerValues v kind, ¬ (0 ≤ n ∧ n ≤ 31)) →
      ∃ t n, n ∈ registerValues v kind ∧ ¬ (0 ≤ n ∧ n ≤ 31) ∧ step s = .next t ∧ TurnedAway s rest (.faulted (.contractIndex n)) t) ∧
    (∀ kind v, c = .construct (.known kind) v → (kind = .addi ∨ kind = .addiu) → (∀ n ∈ registerValues v kind, 0 ≤ n ∧ n ≤ 31) →
      ¬ (-32768 ≤ v.imm ∧ v.imm ≤ 32767) → ∃ t, step s = .next t ∧ TurnedAway s rest (.faulted (.contractImmediate v.imm)) t) ∧
    (∀ kind v, c = .construct (.known kind) v → (kind = .sll ∨ kind = .srl ∨ kind = .sra ∨ kind = .rotr) → s.params.extShift = true →
      (∀ n ∈ registerValues v kind, 0 ≤ n ∧ n ≤ 31) → ¬ (0 ≤ v.sa ∧ v.sa ≤ 31) →
      ∃ t, step s = .next t ∧ TurnedAway s rest (.faulted (.contractShiftAmount v.sa)) t) ∧
    (∀ h, (c = .execute h ∨ c = .reverse h ∨ c = .encode h) → s.insts[h]? = none →
      ∃ t, step s = .next t ∧ TurnedAway s rest (.faulted (.contractHandle h)) t) ∧
    (∀ h o, c = .reverse h → s.insts[h]? = some o → o.live = false →
      ∃ t, step s = .next t ∧ TurnedAway s rest (.faulted (.contractReverse h)) t) ∧
    (∀ h o, c = .encode h → s.insts[h]? = some o → ∃ t, step s = .next t ∧ TurnedAway s rest (.faulted (.notImplementedEncode h)) t) ∧
    (∀ h o rs rt, c = .execute h → s.insts[h]? = some o → (o.instr = .div rs rt ∨ o.instr = .divu rs rt) → s.readReg rt = 0#32 →
      ∃ t, step s = .next t ∧ TurnedAway s rest (.faulted (.divideByZero rs rt)) t) ∧
    (∀ h o rs rt, c = .execute h → s.insts[h]? = some o → o.instr = .div rs rt → s.readReg rs = 0x80000000#32 →
      s.readReg rt = 0xFFFFFFFF#32 → s.params.divOvf = .fault →
      ∃ t, step s = .next t ∧ TurnedAway s rest (.faulted (.divideOverflow rs rt)) t)

/-- The other direction of R224 and R225: whatever command it was, a step that leaves the block not running has written nothing but the status. -/
def Obligations.EveryStopWritesNothingButStatus : Prop :=
  ∀ (s t : State), step s = .next t → t.status ≠ .running →
    ∃ c rest, s.commands = c :: rest ∧ s.status = .running ∧ TurnedAway s rest t.status t

/-- R225: the refusals of construct and decode; a refusal writes nothing but the status (`TurnedAway`). -/
def Obligations.RefusalsWriteNothingButStatus : Prop :=
  ∀ (s : State) (c : Command) (rest : List Command), s.status = .running → s.commands = c :: rest →
    (∀ f v, c = .construct (.foreign f) v →
      ∃ t, step s = .next t ∧ TurnedAway s rest (.refused (.unsupportedKind (.foreign f))) t) ∧
    (∀ kind v, c = .construct (.known kind) v → s.params.admits kind = false →
      ∃ t, step s = .next t ∧ TurnedAway s rest (.refused (.unsupportedKind (.known kind))) t) ∧
    (∀ w, c = .decode w → decode s.params w = .unsupported w →
      ∃ t, step s = .next t ∧ TurnedAway s rest (.refused (.unsupportedWord w)) t) ∧
    (∀ w, c = .decode w → decode s.params w = .reserved w →
      ∃ t, step s = .next t ∧ TurnedAway s rest (.refused (.reservedWord w)) t)

/-- R190: what the block refuses with both extensions off: the extension kinds and every foreign name at construct; and at decode their words, the
set-less-than family, the variable shifts and the HI and LO moves, whatever their other fields hold, and every other word that has the opcode
fields of no row of R55. -/
def Obligations.DefaultBlockRefusesWhatTheSourceLacks : Prop :=
  ∀ (s : State) (rest : List Command), s.status = .running → s.params.extSub = false → s.params.extShift = false →
    (∀ k v, s.commands = .construct k v :: rest →
      ((∃ f, k = .foreign f) ∨ k ∈ [.known .sub, .known .subu, .known .sll, .known .srl, .known .sra, .known .rotr]) →
      ∃ t, step s = .next t ∧ TurnedAway s rest (.refused (.unsupportedKind k)) t) ∧
    (∀ w, s.commands = .decode w :: rest →
      (w &&& 0xFC00003F#32 ∈ [0x00000022#32, 0x00000023#32, 0x00000000#32, 0x00000002#32, 0x00000003#32, 0x0000002A#32, 0x0000002B#32,
          0x00000004#32, 0x00000006#32, 0x00000007#32, 0x00000010#32, 0x00000011#32, 0x00000012#32, 0x00000013#32] ∨
        w &&& 0xFC000000#32 ∈ [0x28000000#32, 0x2C000000#32] ∨ ∀ r ∈ sourceRows, w &&& r.select ≠ r.pattern &&& r.select) →
      ∃ t, step s = .next t ∧ TurnedAway s rest (.refused (.unsupportedWord w)) t)

/-- R227: a faulted or refused block takes no further step and keeps its reason, however many commands follow. -/
def Obligations.StoppedBlockKeepsItsReason : Prop :=
  ∀ (s : State) (n : Nat),
    (∀ f, s.status = .faulted f → step s = .fault f ∧ Host.Core.run Sys2Proof.core (n + 1) s = .fault f) ∧
    (∀ r, s.status = .refused r → step s = .refused r ∧ Host.Core.run Sys2Proof.core (n + 1) s = .refused r)

/-- A running block with no command issued does not change (log 2; R228 says nothing asynchronous changes it). -/
def Obligations.NothingChangesWithoutACommand : Prop :=
  ∀ s : State, s.status = .running → s.commands = [] → step s = .next s

/-- R255, an inference the spec marks as its own ("derived: from 10_state.md rule R32"): an instance is no longer reversible once another instance's completed execute wrote its destination set, even after that other
instance has been reversed. -/
def Obligations.OverwrittenInstanceCannotBeReversed : Prop :=
  ∀ (s t : State) (h g : Nat) (p o : Operation) (rest : List Command),
    s.commands = .execute g :: .reverse g :: .reverse h :: rest → g ≠ h → s.insts[g]? = some p → s.insts[h]? = some o →
    destOf o.instr = destOf p.instr → step s = .next t → t.status = .running →
    ∃ v, Host.Core.run Sys2Proof.core 3 s = .next v ∧ v.status = .faulted (.contractReverse h) ∧ SameRegisters s v
end

