-- ==== Sys2Proof/Laws/Decode.lean ====
section
/-! SUPPORT. The opcode map names at most one row for a word, so a row that fits decides the decoder; and the fields of an encoded word. -/

namespace Sys2Proof

theorem OpcodeRow.fits_iff (r : OpcodeRow) (w : Word) : r.fits w = true ↔ w &&& r.mask = r.pattern := by
  simp [OpcodeRow.fits]

/-- Two different rows differ in a bit both masks fix (R61). -/
theorem opcodeRows_disjoint : ∀ r ∈ opcodeRows, ∀ q ∈ opcodeRows, r ≠ q → (r.pattern ^^^ q.pattern) &&& (r.mask &&& q.mask) ≠ 0#32 := by
  decide

/-- One row per kind. -/
theorem opcodeRows_kind_inj : ∀ r ∈ opcodeRows, ∀ q ∈ opcodeRows, r.kind = q.kind → r = q := by
  decide

theorem fits_unique {r q : OpcodeRow} (hr : r ∈ opcodeRows) (hq : q ∈ opcodeRows) {w : Word} (hrw : r.fits w = true)
    (hqw : q.fits w = true) : r = q := by
  by_contra hne
  apply opcodeRows_disjoint r hr q hq hne
  rw [OpcodeRow.fits_iff] at hrw hqw
  rw [← hrw, ← hqw]
  apply BitVec.eq_of_getLsbD_eq
  intro i hi
  simp only [BitVec.getLsbD_and, BitVec.getLsbD_xor, BitVec.getLsbD_zero]
  cases w.getLsbD i <;> cases r.mask.getLsbD i <;> cases q.mask.getLsbD i <;> rfl

/-- What the row search answers (R60). -/
theorem admittedRow_eq_some {P : Params} {w : Word} {r : OpcodeRow} (h : admittedRow P w = some r) :
    r ∈ opcodeRows ∧ P.admits r.kind = true ∧ r.fits w = true := by
  have hp := List.find?_some h
  simp only [Bool.and_eq_true] at hp
  exact ⟨List.mem_of_find?_eq_some h, hp⟩

theorem admittedRow_of_fits {P : Params} {w : Word} {r : OpcodeRow} (hr : r ∈ opcodeRows) (ha : P.admits r.kind = true)
    (hw : r.fits w = true) : admittedRow P w = some r := by
  cases h : admittedRow P w with
  | none =>
    have := List.find?_eq_none.mp h r hr
    simp [ha, hw] at this
  | some q =>
    obtain ⟨hq, _, hqw⟩ := admittedRow_eq_some h
    rw [fits_unique hq hr hqw hw]

/-- A word that fits a row in force decodes to that row's instruction (R60). -/
theorem decode_of_fits {P : Params} {w : Word} {r : OpcodeRow} (hr : r ∈ opcodeRows) (ha : P.admits r.kind = true)
    (hw : r.fits w = true) (hrt : r.kind.requiresRtEqRd = true → rtField w = rdField w) :
    decode P w = .instr (instrOfFields w r.kind) := by
  unfold decode
  rw [admittedRow_of_fits hr ha hw]
  cases hq : r.kind.requiresRtEqRd with
  | false => simp [hq]
  | true => simp [hrt hq]

theorem instrOfFields_kind (w : Word) (k : Kind) : (instrOfFields w k).kind = k := by cases k <;> rfl

/-- What it takes for the decoder to answer an instruction (R57, R60). -/
theorem decode_eq_instr {P : Params} {w : Word} {i : Instr} (h : decode P w = .instr i) :
    ∃ r ∈ opcodeRows, P.admits r.kind = true ∧ r.fits w = true ∧ (r.kind.requiresRtEqRd = true → rtField w = rdField w) ∧
      i = instrOfFields w r.kind := by
  unfold decode at h
  split at h
  · next r hr =>
    obtain ⟨hm, ha, hw⟩ := admittedRow_eq_some hr
    split at h
    · cases h
    · next hc =>
      injection h with h
      refine ⟨r, hm, ha, hw, fun hq => ?_, h.symm⟩
      simpa [hq] using hc
  · split at h
    · split at h <;> cases h
    · cases h

/-- Only instructions in force are decoded (R58). -/
theorem wellFormed_of_decode {P : Params} {w : Word} {i : Instr} (h : decode P w = .instr i) : i.wellFormed P = true := by
  obtain ⟨r, _, ha, _, _, rfl⟩ := decode_eq_instr h
  simpa [Instr.wellFormed, instrOfFields_kind] using ha

/-- The opcode fields alone tell two rows apart (R61). -/
theorem opcodeRows_select_disjoint : ∀ r ∈ opcodeRows, ∀ q ∈ opcodeRows, r ≠ q →
    (r.pattern ^^^ q.pattern) &&& (r.select &&& q.select) ≠ 0#32 := by
  decide

/-- A row's opcode fields are among the bits it fixes. -/
theorem opcodeRows_select_sub_mask : ∀ r ∈ opcodeRows, r.mask &&& r.select = r.select := by decide

theorem OpcodeRow.selects_iff (r : OpcodeRow) (w : Word) : r.selects w = true ↔ w &&& r.select = r.pattern &&& r.select := by
  simp [OpcodeRow.selects]

theorem selects_unique {r q : OpcodeRow} (hr : r ∈ opcodeRows) (hq : q ∈ opcodeRows) {w : Word} (hrw : r.selects w = true)
    (hqw : q.selects w = true) : r = q := by
  by_contra hne
  apply opcodeRows_select_disjoint r hr q hq hne
  rw [OpcodeRow.selects_iff] at hrw hqw
  apply BitVec.eq_of_getLsbD_eq
  intro i hi
  have h1 := congrArg (·.getLsbD i) hrw
  have h2 := congrArg (·.getLsbD i) hqw
  simp only [BitVec.getLsbD_and, BitVec.getLsbD_xor, BitVec.getLsbD_zero] at h1 h2 ⊢
  revert h1 h2
  cases w.getLsbD i <;> cases r.select.getLsbD i <;> cases q.select.getLsbD i <;> cases r.pattern.getLsbD i <;>
    cases q.pattern.getLsbD i <;> simp

theorem selects_of_fits {r : OpcodeRow} (hr : r ∈ opcodeRows) {w : Word} (h : r.fits w = true) : r.selects w = true := by
  rw [OpcodeRow.selects_iff]
  rw [OpcodeRow.fits_iff] at h
  rw [← h, BitVec.and_assoc, opcodeRows_select_sub_mask r hr]

theorem find_selects {r : OpcodeRow} (hr : r ∈ opcodeRows) {w : Word} (h : r.selects w = true) :
    opcodeRows.find? (fun r => r.selects w) = some r := by
  cases hf : opcodeRows.find? (fun r => r.selects w) with
  | none => have := List.find?_eq_none.mp hf r hr; simp [h] at this
  | some q =>
    have hq : q.selects w = true := List.find?_some (p := fun r : OpcodeRow => r.selects w) hf
    rw [selects_unique (List.mem_of_find?_eq_some hf) hr hq h]

theorem admittedRow_eq_none_iff {P : Params} {w : Word} :
    admittedRow P w = none ↔ ∀ r ∈ opcodeRows, P.admits r.kind = true → r.fits w = false := by
  unfold admittedRow
  rw [List.find?_eq_none]
  simp

/-- A word with the opcode fields of a row not in force is unsupported (R58). -/
theorem decode_of_selects {P : Params} {w : Word} {r : OpcodeRow} (hr : r ∈ opcodeRows) (hs : r.selects w = true)
    (ha : P.admits r.kind = false) : decode P w = .unsupported w := by
  have : admittedRow P w = none := by
    rw [admittedRow_eq_none_iff]
    intro q hq hqa
    by_contra hf
    rw [selects_unique hq hr (selects_of_fits hq (by simpa using hf)) hs, ha] at hqa
    cases hqa
  unfold decode
  simp only [this, find_selects hr hs, ha]
  rfl

section Fields

variable (op funct : BitVec 6) (rs rt rd : Reg) (sa : Fin 32) (imm16 : BitVec 16)

/-- A five-bit field of a word, read bit by bit. -/
theorem field_eq {w : Word} {lo : Nat} {r : Fin 32}
    (h : ∀ i, i < 5 → w.getLsbD (lo + i) = (BitVec.ofNat 5 r.val).getLsbD i) :
    (w.extractLsb' lo 5).toNat = r.val := by
  have he : w.extractLsb' lo 5 = BitVec.ofNat 5 r.val := by
    apply BitVec.eq_of_getLsbD_eq
    intro i hi
    rw [BitVec.getLsbD_extractLsb', ← h i hi]
    simp [hi]
  rw [he]
  simp only [BitVec.toNat_ofNat]
  omega

theorem getLsbD_rFormat {i : Nat} (hi : i < 32) : (rFormat op rs rt rd sa funct).getLsbD i =
    if i < 6 then funct.getLsbD i
    else if i < 11 then (BitVec.ofNat 5 sa.val).getLsbD (i - 6)
    else if i < 16 then (BitVec.ofNat 5 rd.val).getLsbD (i - 11)
    else if i < 21 then (BitVec.ofNat 5 rt.val).getLsbD (i - 16)
    else if i < 26 then (BitVec.ofNat 5 rs.val).getLsbD (i - 21)
    else op.getLsbD (i - 26) := by
  have hs : ∀ (a : Fin 32) (k : Nat), 5 ≤ k → a.val.testBit k = false := fun a k hk =>
    Nat.testBit_lt_two_pow (lt_of_lt_of_le a.isLt (by simpa using Nat.pow_le_pow_right (n := 2) (by omega) hk))
  simp only [rFormat, BitVec.getLsbD_or, BitVec.getLsbD_shiftLeft, BitVec.getLsbD_setWidth, BitVec.getLsbD_ofNat]
  interval_cases i <;> simp [hs, BitVec.getLsbD_of_ge]

theorem getLsbD_iFormat {i : Nat} (hi : i < 32) : (iFormat op rs rt imm16).getLsbD i =
    if i < 16 then imm16.getLsbD i
    else if i < 21 then (BitVec.ofNat 5 rt.val).getLsbD (i - 16)
    else if i < 26 then (BitVec.ofNat 5 rs.val).getLsbD (i - 21)
    else op.getLsbD (i - 26) := by
  have hs : ∀ (a : Fin 32) (k : Nat), 5 ≤ k → a.val.testBit k = false := fun a k hk =>
    Nat.testBit_lt_two_pow (lt_of_lt_of_le a.isLt (by simpa using Nat.pow_le_pow_right (n := 2) (by omega) hk))
  simp only [iFormat, BitVec.getLsbD_or, BitVec.getLsbD_shiftLeft, BitVec.getLsbD_setWidth, BitVec.getLsbD_ofNat]
  interval_cases i <;> simp [hs, BitVec.getLsbD_of_ge]

@[simp] theorem rsField_rFormat : rsField (rFormat op rs rt rd sa funct) = rs := by
  apply Fin.ext; apply field_eq
  intro i hi; rw [getLsbD_rFormat _ _ _ _ _ _ (by omega)]; interval_cases i <;> rfl

@[simp] theorem rtField_rFormat : rtField (rFormat op rs rt rd sa funct) = rt := by
  apply Fin.ext; apply field_eq
  intro i hi; rw [getLsbD_rFormat _ _ _ _ _ _ (by omega)]; interval_cases i <;> rfl

@[simp] theorem rdField_rFormat : rdField (rFormat op rs rt rd sa funct) = rd := by
  apply Fin.ext; apply field_eq
  intro i hi; rw [getLsbD_rFormat _ _ _ _ _ _ (by omega)]; interval_cases i <;> rfl

@[simp] theorem saField_rFormat : saField (rFormat op rs rt rd sa funct) = sa := by
  apply Fin.ext; apply field_eq
  intro i hi; rw [getLsbD_rFormat _ _ _ _ _ _ (by omega)]; interval_cases i <;> rfl

@[simp] theorem rsField_iFormat : rsField (iFormat op rs rt imm16) = rs := by
  apply Fin.ext; apply field_eq
  intro i hi; rw [getLsbD_iFormat _ _ _ _ (by omega)]; interval_cases i <;> rfl

@[simp] theorem rtField_iFormat : rtField (iFormat op rs rt imm16) = rt := by
  apply Fin.ext; apply field_eq
  intro i hi; rw [getLsbD_iFormat _ _ _ _ (by omega)]; interval_cases i <;> rfl

@[simp] theorem imm16Field_iFormat : imm16Field (iFormat op rs rt imm16) = imm16 := by
  apply BitVec.eq_of_getLsbD_eq
  intro i hi
  rw [imm16Field, BitVec.getLsbD_extractLsb', getLsbD_iFormat _ _ _ _ (by omega)]
  simp [hi]

/-- An R-format word fits a row whose mask fixes `op` and `funct`, once the masked bits agree with the pattern (R55). -/
theorem fits_of_bits {r : OpcodeRow} {w : Word}
    (h : ∀ i, i < 32 → (w.getLsbD i && r.mask.getLsbD i) = r.pattern.getLsbD i) : r.fits w = true := by
  rw [OpcodeRow.fits_iff]
  apply BitVec.eq_of_getLsbD_eq
  intro i hi
  rw [BitVec.getLsbD_and, h i hi]

end Fields

end Sys2Proof
end

