-- ==== Sys2Proof/Laws/Operands.lean ====
section
/-! SUPPORT. What the value functions of Machine/Operands.lean and Machine/Flags.lean compute, in the library's own terms. -/

namespace Sys2Proof.Machine

theorem signedOverflow_iff (S : Int) : signedOverflow S = true ↔ S < -2 ^ 31 ∨ S > 2 ^ 31 - 1 := by
  simp [signedOverflow]

theorem signedOverflow_eq_false_iff (S : Int) : signedOverflow S = false ↔ -2 ^ 31 ≤ S ∧ S ≤ 2 ^ 31 - 1 := by
  simp [signedOverflow]

/-- A pattern of an integer that fits keeps it (R11). -/
theorem toInt_wrap_of_fits {S : Int} (h : -2 ^ 31 ≤ S ∧ S ≤ 2 ^ 31 - 1) : (wrap 32 S).toInt = S := by
  rw [BitVec.toInt_ofInt]; simp only [Int.bmod_def]; omega

theorem toNat_wrap (N : Nat) (n : Int) : ((wrap N n).toNat : Int) = n % 2 ^ N := by
  rw [BitVec.toNat_ofInt, Int.toNat_of_nonneg (Int.emod_nonneg _ (by positivity))]
  simp

/-- The bits counted are all equal to `b`, and the next one is not (R13). -/
theorem leadingRun_spec (b : Bool) (v : Word) (n : Nat) :
    leadingRun b v n ≤ n ∧ (∀ j, j < leadingRun b v n → v.getLsbD (n - 1 - j) = b) ∧
      (leadingRun b v n < n → v.getLsbD (n - 1 - leadingRun b v n) ≠ b) := by
  induction n with
  | zero => simp [leadingRun]
  | succ n ih =>
    obtain ⟨hle, hbits, hstop⟩ := ih
    unfold leadingRun
    split
    · next hb =>
      refine ⟨by omega, fun j hj => ?_, fun hlt => ?_⟩
      · rcases j with _ | j
        · simpa using hb
        · have := hbits j (by omega)
          rwa [show n - 1 - j = n + 1 - 1 - (j + 1) by omega] at this
      · have := hstop (by omega)
        rwa [show n - 1 - leadingRun b v n = n + 1 - 1 - (leadingRun b v n + 1) by omega] at this
    · next hb => exact ⟨by omega, fun j hj => by omega, fun _ => by simpa using hb⟩

theorem shiftLeft_eq (v : Word) (sa : ShiftAmount) : shiftLeft v sa = v <<< sa.val := by
  apply BitVec.eq_of_toNat_eq
  have h := toNat_wrap 32 (uint v * 2 ^ sa.val)
  have h2 : (v <<< sa.val).toNat = v.toNat * 2 ^ sa.val % 2 ^ 32 := by simp [BitVec.toNat_shiftLeft, Nat.shiftLeft_eq]
  rw [h2]; unfold shiftLeft; zify; rw [h]

theorem getLsbD_shiftRightLogical (v : Word) (sa : ShiftAmount) (i : Nat) :
    (shiftRightLogical v sa).getLsbD i = (decide (i + sa.val < 32) && v.getLsbD (i + sa.val)) := by
  have := sa.isLt
  simp only [shiftRightLogical, BitVec.getLsbD_setWidth, BitVec.getLsbD_extractLsb']
  by_cases h : i + sa.val < 32
  · have h1 : i < 32 := by omega
    have h2 : i < 32 - sa.val := by omega
    simp [h, h1, h2, Nat.add_comm]
  · have h2 : ¬ i < 32 - sa.val := by omega
    simp [h, h2]

theorem shiftRightLogical_eq (v : Word) (sa : ShiftAmount) : shiftRightLogical v sa = v >>> sa.val := by
  apply BitVec.eq_of_getLsbD_eq
  intro i hi
  rw [getLsbD_shiftRightLogical, BitVec.getLsbD_ushiftRight, Nat.add_comm]
  by_cases h : sa.val + i < 32
  · simp [h]
  · simp [h, BitVec.getLsbD_of_ge v _ (Nat.le_of_not_lt h)]

theorem getLsbD_shiftRightArithmetic (v : Word) (sa : ShiftAmount) {i : Nat} (hi : i < 32) :
    (shiftRightArithmetic v sa).getLsbD i = v.getLsbD (min (i + sa.val) 31) := by
  have := sa.isLt
  simp only [shiftRightArithmetic, sext32, BitVec.getLsbD_signExtend, BitVec.getLsbD_extractLsb', BitVec.msb_eq_getLsbD_last, hi]
  by_cases h : i < 32 - sa.val
  · have h3 : min (i + sa.val) 31 = sa.val + i := by omega
    simp [h, h3]
  · have h2 : 32 - sa.val - 1 < 32 - sa.val := by omega
    have h3 : sa.val + (32 - sa.val - 1) = min (i + sa.val) 31 := by omega
    simp [h, h2, h3]

theorem getLsbD_rotateRightBy (v : Word) (sa : ShiftAmount) {i : Nat} (hi : i < 32) :
    (rotateRightBy v sa).getLsbD i = v.getLsbD ((i + sa.val) % 32) := by
  have := sa.isLt
  simp only [rotateRightBy, BitVec.getLsbD_setWidth, BitVec.getLsbD_append, BitVec.getLsbD_extractLsb', hi]
  by_cases h : i < 32 - sa.val
  · have h3 : (i + sa.val) % 32 = sa.val + i := by omega
    simp [h, h3]
  · have h2 : i - (32 - sa.val) < sa.val := by omega
    have h3 : i - (32 - sa.val) = (i + sa.val) % 32 := by omega
    simp [h, ← h3, h2]

/-- An in-range index names the register of that number (R23). -/
theorem regOfInt_val {n : Int} (h : registerInRange n = true) : ((regOfInt n).val : Int) = n := by
  simp [registerInRange] at h
  simp [regOfInt, Fin.ofNat]; omega

theorem regOfInt_ofReg (r : Reg) : regOfInt (r.val : Int) = r := by
  apply Fin.ext
  simp [regOfInt, Fin.ofNat]

theorem registerInRange_ofReg (r : Reg) : registerInRange (r.val : Int) = true := by
  simp [registerInRange]; omega

end Sys2Proof.Machine
end

