-- ==== Sys2Proof/Laws/State.lean ====
section
/-! SUPPORT. One lemma per field of State per update: what the update leaves in that field. -/

namespace Sys2Proof.Machine

variable (s : State)

@[simp] theorem State.writeReg_x (i : Reg) (v : Word) : (s.writeReg i v).x = s.x.set i.val v := rfl
@[simp] theorem State.writeReg_HI (i : Reg) (v : Word) : (s.writeReg i v).HI = s.HI := rfl
@[simp] theorem State.writeReg_LO (i : Reg) (v : Word) : (s.writeReg i v).LO = s.LO := rfl
@[simp] theorem State.writeReg_ovfCount (i : Reg) (v : Word) : (s.writeReg i v).ovfCount = s.ovfCount := rfl
@[simp] theorem State.writeReg_insts (i : Reg) (v : Word) : (s.writeReg i v).insts = s.insts := rfl
@[simp] theorem State.writeReg_status (i : Reg) (v : Word) : (s.writeReg i v).status = s.status := rfl
@[simp] theorem State.writeReg_out (i : Reg) (v : Word) : (s.writeReg i v).out = s.out := rfl
@[simp] theorem State.writeReg_params (i : Reg) (v : Word) : (s.writeReg i v).params = s.params := rfl
@[simp] theorem State.writeReg_commands (i : Reg) (v : Word) : (s.writeReg i v).commands = s.commands := rfl

@[simp] theorem State.writePair_x (hi lo : Word) : (s.writePair hi lo).x = s.x := rfl
@[simp] theorem State.writePair_HI (hi lo : Word) : (s.writePair hi lo).HI = hi := rfl
@[simp] theorem State.writePair_LO (hi lo : Word) : (s.writePair hi lo).LO = lo := rfl
@[simp] theorem State.writePair_ovfCount (hi lo : Word) : (s.writePair hi lo).ovfCount = s.ovfCount := rfl
@[simp] theorem State.writePair_insts (hi lo : Word) : (s.writePair hi lo).insts = s.insts := rfl
@[simp] theorem State.writePair_status (hi lo : Word) : (s.writePair hi lo).status = s.status := rfl
@[simp] theorem State.writePair_out (hi lo : Word) : (s.writePair hi lo).out = s.out := rfl
@[simp] theorem State.writePair_params (hi lo : Word) : (s.writePair hi lo).params = s.params := rfl
@[simp] theorem State.writePair_commands (hi lo : Word) : (s.writePair hi lo).commands = s.commands := rfl

@[simp] theorem State.signalOverflowTrap_x : (s.signalOverflowTrap).x = s.x := rfl
@[simp] theorem State.signalOverflowTrap_HI : (s.signalOverflowTrap).HI = s.HI := rfl
@[simp] theorem State.signalOverflowTrap_LO : (s.signalOverflowTrap).LO = s.LO := rfl
@[simp] theorem State.signalOverflowTrap_ovfCount : (s.signalOverflowTrap).ovfCount = s.ovfCount + 1 := rfl
@[simp] theorem State.signalOverflowTrap_insts : (s.signalOverflowTrap).insts = s.insts := rfl
@[simp] theorem State.signalOverflowTrap_status : (s.signalOverflowTrap).status = s.status := rfl
@[simp] theorem State.signalOverflowTrap_out : (s.signalOverflowTrap).out = { s.out with trap := true } := rfl
@[simp] theorem State.signalOverflowTrap_params : (s.signalOverflowTrap).params = s.params := rfl
@[simp] theorem State.signalOverflowTrap_commands : (s.signalOverflowTrap).commands = s.commands := rfl

@[simp] theorem State.clearLive_x (w : Written) : (s.clearLive w).x = s.x := rfl
@[simp] theorem State.clearLive_HI (w : Written) : (s.clearLive w).HI = s.HI := rfl
@[simp] theorem State.clearLive_LO (w : Written) : (s.clearLive w).LO = s.LO := rfl
@[simp] theorem State.clearLive_ovfCount (w : Written) : (s.clearLive w).ovfCount = s.ovfCount := rfl
@[simp] theorem State.clearLive_insts (w : Written) : (s.clearLive w).insts = s.insts.map fun o => if w.meets (destOf o.instr) then { o with live := false } else o := rfl
@[simp] theorem State.clearLive_status (w : Written) : (s.clearLive w).status = s.status := rfl
@[simp] theorem State.clearLive_out (w : Written) : (s.clearLive w).out = s.out := rfl
@[simp] theorem State.clearLive_params (w : Written) : (s.clearLive w).params = s.params := rfl
@[simp] theorem State.clearLive_commands (w : Written) : (s.clearLive w).commands = s.commands := rfl

@[simp] theorem State.setSlot_x (h : Nat) (o : Operation) (v : Slot) (l : Bool) : (s.setSlot h o v l).x = s.x := rfl
@[simp] theorem State.setSlot_HI (h : Nat) (o : Operation) (v : Slot) (l : Bool) : (s.setSlot h o v l).HI = s.HI := rfl
@[simp] theorem State.setSlot_LO (h : Nat) (o : Operation) (v : Slot) (l : Bool) : (s.setSlot h o v l).LO = s.LO := rfl
@[simp] theorem State.setSlot_ovfCount (h : Nat) (o : Operation) (v : Slot) (l : Bool) : (s.setSlot h o v l).ovfCount = s.ovfCount := rfl
@[simp] theorem State.setSlot_insts (h : Nat) (o : Operation) (v : Slot) (l : Bool) : (s.setSlot h o v l).insts = s.insts.set h { o with slot := v, live := l } := rfl
@[simp] theorem State.setSlot_status (h : Nat) (o : Operation) (v : Slot) (l : Bool) : (s.setSlot h o v l).status = s.status := rfl
@[simp] theorem State.setSlot_out (h : Nat) (o : Operation) (v : Slot) (l : Bool) : (s.setSlot h o v l).out = s.out := rfl
@[simp] theorem State.setSlot_params (h : Nat) (o : Operation) (v : Slot) (l : Bool) : (s.setSlot h o v l).params = s.params := rfl
@[simp] theorem State.setSlot_commands (h : Nat) (o : Operation) (v : Slot) (l : Bool) : (s.setSlot h o v l).commands = s.commands := rfl

@[simp] theorem State.addOperation_x (i : Instr) : (s.addOperation i).x = s.x := rfl
@[simp] theorem State.addOperation_HI (i : Instr) : (s.addOperation i).HI = s.HI := rfl
@[simp] theorem State.addOperation_LO (i : Instr) : (s.addOperation i).LO = s.LO := rfl
@[simp] theorem State.addOperation_ovfCount (i : Instr) : (s.addOperation i).ovfCount = s.ovfCount := rfl
@[simp] theorem State.addOperation_insts (i : Instr) : (s.addOperation i).insts = s.insts ++ [{ instr := i, slot := .empty, live := false }] := rfl
@[simp] theorem State.addOperation_status (i : Instr) : (s.addOperation i).status = s.status := rfl
@[simp] theorem State.addOperation_out (i : Instr) : (s.addOperation i).out = { s.out with result := .handle s.insts.length } := rfl
@[simp] theorem State.addOperation_params (i : Instr) : (s.addOperation i).params = s.params := rfl
@[simp] theorem State.addOperation_commands (i : Instr) : (s.addOperation i).commands = s.commands := rfl

@[simp] theorem State.answer_x (w : Word) : (s.answer w).x = s.x := rfl
@[simp] theorem State.answer_HI (w : Word) : (s.answer w).HI = s.HI := rfl
@[simp] theorem State.answer_LO (w : Word) : (s.answer w).LO = s.LO := rfl
@[simp] theorem State.answer_ovfCount (w : Word) : (s.answer w).ovfCount = s.ovfCount := rfl
@[simp] theorem State.answer_insts (w : Word) : (s.answer w).insts = s.insts := rfl
@[simp] theorem State.answer_status (w : Word) : (s.answer w).status = s.status := rfl
@[simp] theorem State.answer_out (w : Word) : (s.answer w).out = { s.out with result := .word w } := rfl
@[simp] theorem State.answer_params (w : Word) : (s.answer w).params = s.params := rfl
@[simp] theorem State.answer_commands (w : Word) : (s.answer w).commands = s.commands := rfl

@[simp] theorem State.raise_x (f : Fault) : (s.raise f).x = s.x := rfl
@[simp] theorem State.raise_HI (f : Fault) : (s.raise f).HI = s.HI := rfl
@[simp] theorem State.raise_LO (f : Fault) : (s.raise f).LO = s.LO := rfl
@[simp] theorem State.raise_ovfCount (f : Fault) : (s.raise f).ovfCount = s.ovfCount := rfl
@[simp] theorem State.raise_insts (f : Fault) : (s.raise f).insts = s.insts := rfl
@[simp] theorem State.raise_status (f : Fault) : (s.raise f).status = .faulted f := rfl
@[simp] theorem State.raise_out (f : Fault) : (s.raise f).out = s.out := rfl
@[simp] theorem State.raise_params (f : Fault) : (s.raise f).params = s.params := rfl
@[simp] theorem State.raise_commands (f : Fault) : (s.raise f).commands = s.commands := rfl

@[simp] theorem State.refuse_x (r : Refusal) : (s.refuse r).x = s.x := rfl
@[simp] theorem State.refuse_HI (r : Refusal) : (s.refuse r).HI = s.HI := rfl
@[simp] theorem State.refuse_LO (r : Refusal) : (s.refuse r).LO = s.LO := rfl
@[simp] theorem State.refuse_ovfCount (r : Refusal) : (s.refuse r).ovfCount = s.ovfCount := rfl
@[simp] theorem State.refuse_insts (r : Refusal) : (s.refuse r).insts = s.insts := rfl
@[simp] theorem State.refuse_status (r : Refusal) : (s.refuse r).status = .refused r := rfl
@[simp] theorem State.refuse_out (r : Refusal) : (s.refuse r).out = s.out := rfl
@[simp] theorem State.refuse_params (r : Refusal) : (s.refuse r).params = s.params := rfl
@[simp] theorem State.refuse_commands (r : Refusal) : (s.refuse r).commands = s.commands := rfl

@[simp] theorem State.take_x (rest : List Command) : (s.take rest).x = s.x := rfl
@[simp] theorem State.take_HI (rest : List Command) : (s.take rest).HI = s.HI := rfl
@[simp] theorem State.take_LO (rest : List Command) : (s.take rest).LO = s.LO := rfl
@[simp] theorem State.take_ovfCount (rest : List Command) : (s.take rest).ovfCount = s.ovfCount := rfl
@[simp] theorem State.take_insts (rest : List Command) : (s.take rest).insts = s.insts := rfl
@[simp] theorem State.take_status (rest : List Command) : (s.take rest).status = s.status := rfl
@[simp] theorem State.take_out (rest : List Command) : (s.take rest).out = Output.quiet := rfl
@[simp] theorem State.take_params (rest : List Command) : (s.take rest).params = s.params := rfl
@[simp] theorem State.take_commands (rest : List Command) : (s.take rest).commands = rest := rfl

@[simp] theorem State.create_x (P : Params) (I : Init) : (State.create P I).x = I.x := rfl
@[simp] theorem State.create_HI (P : Params) (I : Init) : (State.create P I).HI = I.HI := rfl
@[simp] theorem State.create_LO (P : Params) (I : Init) : (State.create P I).LO = I.LO := rfl
@[simp] theorem State.create_ovfCount (P : Params) (I : Init) : (State.create P I).ovfCount = 0 := rfl
@[simp] theorem State.create_insts (P : Params) (I : Init) : (State.create P I).insts = [] := rfl
@[simp] theorem State.create_status (P : Params) (I : Init) : (State.create P I).status = .running := rfl
@[simp] theorem State.create_out (P : Params) (I : Init) : (State.create P I).out = Output.quiet := rfl
@[simp] theorem State.create_params (P : Params) (I : Init) : (State.create P I).params = P := rfl
@[simp] theorem State.create_commands (P : Params) (I : Init) : (State.create P I).commands = [] := rfl

@[simp] theorem Output.quiet_trap : Output.quiet.trap = false := rfl
@[simp] theorem Output.quiet_result : Output.quiet.result = .nothing := rfl

end Sys2Proof.Machine
end

