-- ==== Sys2Proof/Laws/Ops.lean ====
section
/-! SUPPORT. The read-after-write laws of the registers, and for each shared operation one lemma that says all it can do. -/

namespace Sys2Proof.Machine

@[simp] theorem State.readReg_writeReg_self (s : State) (i : Reg) (v : Word) : (s.writeReg i v).readReg i = v := by
  simp [State.readReg, State.writeReg]

theorem State.readReg_writeReg_of_ne (s : State) {i j : Reg} (v : Word) (h : j ≠ i) :
    (s.writeReg i v).readReg j = s.readReg j := by
  simp only [State.readReg, State.writeReg]
  exact Vector.getElem_set_ne _ _ (fun e => h (Fin.ext e.symm))

theorem State.writeReg_readReg (s : State) (i : Reg) : s.writeReg i (s.readReg i) = s := by
  simp [State.writeReg, State.readReg]

theorem State.readReg_congr {s t : State} (h : t.x = s.x) (r : Reg) : t.readReg r = s.readReg r := by
  simp [State.readReg, h]

@[simp] theorem State.readReg_writePair (s : State) (hi lo : Word) (r : Reg) : (s.writePair hi lo).readReg r = s.readReg r := rfl
@[simp] theorem State.readReg_signal (s : State) (r : Reg) : s.signalOverflowTrap.readReg r = s.readReg r := rfl
@[simp] theorem State.readReg_clearLive (s : State) (w : Written) (r : Reg) : (s.clearLive w).readReg r = s.readReg r := rfl
@[simp] theorem State.readReg_setSlot (s : State) (h : Nat) (o : Operation) (v : Slot) (l : Bool) (r : Reg) :
    (s.setSlot h o v l).readReg r = s.readReg r := rfl
@[simp] theorem State.readReg_take (s : State) (rest : List Command) (r : Reg) : (s.take rest).readReg r = s.readReg r := rfl

theorem State.writeAcc_eq (s : State) (R : DWord) :
    s.writeAcc R = s.writePair (R.extractLsb' 32 32) (if s.params.loMask16 then zext32 (R.extractLsb' 0 16) else R.extractLsb' 0 32) := rfl

/-- The placement writes the quotient and the remainder, one to each of HI and LO (R170). -/
theorem State.place_cases (s : State) (m : Place) (q r : Word) :
    (m = .qloRhi ∧ s.place m q r = s.writePair r q) ∨ (m = .qhiRlo ∧ s.place m q r = s.writePair q r) := by
  cases m <;> simp [State.place]

/-- The trapping add or subtract either signals and writes nothing, or writes the exact result (R100). -/
theorem State.writeOrTrap_cases (s : State) (d : Reg) (S : Int) :
    (signedOverflow S = true ∧ s.writeOrTrap d S = s.signalOverflowTrap) ∨
      (signedOverflow S = false ∧ s.writeOrTrap d S = s.writeReg d (wrap 32 S)) := by
  unfold State.writeOrTrap
  cases signedOverflow S <;> simp

/-- All an instruction rule can do (R22, R220, R224): write its destination, signal the trap, or raise a divide fault. -/
theorem exec_cases (i : Instr) (s : State) :
    (∃ d v, destOf i = .reg d ∧ exec i s = .next (s.writeReg d v)) ∨
    (∃ hi lo, destOf i = .hiLo ∧ exec i s = .next (s.writePair hi lo)) ∨
    (∃ d S, destOf i = .reg d ∧ signedOverflow S = true ∧ (i.kind = .add ∨ i.kind = .addi ∨ i.kind = .sub) ∧
      exec i s = .next s.signalOverflowTrap) ∨
    (∃ rs rt, (i = .div rs rt ∨ i = .divu rs rt) ∧ s.readReg rt = 0#32 ∧ exec i s = .fault (.divideByZero rs rt)) ∨
    (∃ rs rt, i = .div rs rt ∧ divOverflows (s.readReg rs) (s.readReg rt) = true ∧ s.params.divOvf = .fault ∧
      exec i s = .fault (.divideOverflow rs rt)) := by
  have trap : ∀ (d : Reg) (S : Int), (i.kind = .add ∨ i.kind = .addi ∨ i.kind = .sub) → destOf i = .reg d →
      exec i s = .next (s.writeOrTrap d S) →
      (∃ d v, destOf i = .reg d ∧ exec i s = .next (s.writeReg d v)) ∨
      (∃ d S, destOf i = .reg d ∧ signedOverflow S = true ∧ (i.kind = .add ∨ i.kind = .addi ∨ i.kind = .sub) ∧
        exec i s = .next s.signalOverflowTrap) := by
    intro d S hk hd he
    rcases s.writeOrTrap_cases d S with ⟨ho, hw⟩ | ⟨_, hw⟩
    · exact .inr ⟨d, S, hd, ho, hk, by rw [he, hw]⟩
    · exact .inl ⟨d, _, hd, by rw [he, hw]⟩
  have pair : ∀ (m : Place) (q r : Word), destOf i = .hiLo → exec i s = .next (s.place m q r) →
      ∃ hi lo, destOf i = .hiLo ∧ exec i s = .next (s.writePair hi lo) := by
    intro m q r hd he
    rcases s.place_cases m q r with ⟨_, h⟩ | ⟨_, h⟩
    · exact ⟨_, _, hd, by rw [he, h]⟩
    · exact ⟨_, _, hd, by rw [he, h]⟩
  cases i with
  | add rs rt rd => rcases trap rd _ (.inl rfl) rfl rfl with h | h <;> simp only [h, true_or, or_true]
  | addi rs imm16 rt => rcases trap rt _ (.inr (.inl rfl)) rfl rfl with h | h <;> simp only [h, true_or, or_true]
  | sub rs rt rd => rcases trap rd _ (.inr (.inr rfl)) rfl rfl with h | h <;> simp only [h, true_or, or_true]
  | addiu _ _ d | addu _ _ d | clo _ d | clz _ d | mul _ _ d | seb _ d | seh _ d | subu _ _ d => exact .inl ⟨d, _, rfl, rfl⟩
  | sll _ d _ | srl _ d _ | sra _ d _ | rotr _ d _ => exact .inl ⟨d, _, rfl, rfl⟩
  | madd _ _ | maddu _ _ | msub _ _ | msubu _ _ | mult _ _ | multu _ _ => exact .inr (.inl ⟨_, _, rfl, rfl⟩)
  | div rs rt =>
    by_cases h0 : s.readReg rt = 0#32
    · exact .inr (.inr (.inr (.inl ⟨rs, rt, .inl rfl, h0, by simp [exec, execDiv, h0]⟩)))
    · by_cases hov : divOverflows (s.readReg rs) (s.readReg rt) = true
      · cases hp : s.params.divOvf with
        | fault => exact .inr (.inr (.inr (.inr ⟨rs, rt, rfl, hov, rfl, by simp [exec, execDiv, h0, hov, hp]⟩)))
        | wrap => exact .inr (.inl (pair _ _ _ rfl (by simp only [exec, execDiv, h0, hov, hp, if_false, if_true]; rfl)))
      · exact .inr (.inl (pair _ _ _ rfl (by simp only [exec, execDiv, h0, hov, if_false]; rfl)))
  | divu rs rt =>
    by_cases h0 : s.readReg rt = 0#32
    · exact .inr (.inr (.inr (.inl ⟨rs, rt, .inr rfl, h0, by simp [exec, execDivu, h0]⟩)))
    · exact .inr (.inl (pair _ _ _ rfl (by simp only [exec, execDivu, h0, if_false]; rfl)))

end Sys2Proof.Machine
end

