-- ==== Sys2Proof/Laws/Commands.lean ====
section
/-! SUPPORT. For the step and for each command, one lemma that says what it answers. -/

namespace Sys2Proof.Machine

variable {s t : State} {c : Command} {rest : List Command} {h : Nat} {o : Operation}

/-- A running block takes the driver's next command (R45). -/
theorem step_of_command (hr : s.status = .running) (hc : s.commands = c :: rest) :
    step s = (s.take rest).settle ((s.take rest).perform c) := by
  simp [step, State.stepOnce, hr, hc]

theorem step_idle (hr : s.status = .running) (hc : s.commands = []) : step s = .next s := by
  simp [step, State.stepOnce, hr, hc]

theorem step_faulted {f : Fault} (hr : s.status = .faulted f) : step s = .fault f := by simp [step, State.stepOnce, hr]

theorem step_refused {r : Refusal} (hr : s.status = .refused r) : step s = .refused r := by simp [step, State.stepOnce, hr]

/-- All a step that answers a next state can be: idle, a command that completed, one that raised, or one that refused. -/
theorem step_cases (hs : step s = .next t) :
    s.status = .running ∧
      ((s.commands = [] ∧ t = s) ∨
       ∃ c rest, s.commands = c :: rest ∧
        ((s.take rest).perform c = .next t ∨
         (∃ f, (s.take rest).perform c = .fault f ∧ t = (s.take rest).raise f) ∨
         (∃ r, (s.take rest).perform c = .refused r ∧ t = (s.take rest).refuse r))) := by
  unfold step State.stepOnce at hs
  split at hs
  · cases hs
  · cases hs
  · next hr =>
    refine ⟨hr, ?_⟩
    split at hs
    · next hc => injection hs with hs; exact .inl ⟨hc, hs.symm⟩
    · next c rest hc =>
      refine .inr ⟨c, rest, hc, ?_⟩
      cases hp : (s.take rest).perform c with
      | next u => rw [hp] at hs; injection hs with hs; exact .inl (by rw [hs])
      | fault f => rw [hp] at hs; injection hs with hs; exact .inr (.inl ⟨f, rfl, hs.symm⟩)
      | refused r => rw [hp] at hs; injection hs with hs; exact .inr (.inr ⟨r, rfl, hs.symm⟩)

/-- An instruction rule leaves the instances, the status, the parameters and the driver's list alone. -/
theorem exec_surroundings {i : Instr} (he : exec i s = .next t) : SameSurroundings s t := by
  rcases exec_cases i s with ⟨d, v, _, h⟩ | ⟨hi, lo, _, h⟩ | ⟨d, S, _, _, _, h⟩ | ⟨_, _, _, _, h⟩ | ⟨_, _, _, _, _, h⟩ <;>
    rw [h] at he <;> cases he <;> exact ⟨rfl, rfl, rfl, rfl⟩

/-- No instruction rule refuses. -/
theorem exec_ne_refused (i : Instr) (s : State) (r : Refusal) : exec i s ≠ .refused r := by
  intro he
  rcases exec_cases i s with ⟨d, v, _, h⟩ | ⟨hi, lo, _, h⟩ | ⟨d, S, _, _, _, h⟩ | ⟨_, _, _, _, h⟩ | ⟨_, _, _, _, _, h⟩ <;>
    rw [h] at he <;> cases he

theorem execute_of_next {u : State} (ho : s.insts[h]? = some o) (he : exec o.instr s = .next u) :
    s.execute h = .next (s.commitExecute u h o) := by
  simp [State.execute, ho, he]

theorem execute_of_fault {f : Fault} (ho : s.insts[h]? = some o) (he : exec o.instr s = .fault f) : s.execute h = .fault f := by
  simp [State.execute, ho, he]

/-- An execute that answers a next state ran the rule of a known instance and then did its bookkeeping (R82). -/
theorem execute_next_cases (he : s.execute h = .next t) :
    ∃ o u, s.insts[h]? = some o ∧ exec o.instr s = .next u ∧ t = s.commitExecute u h o := by
  unfold State.execute at he
  split at he
  · cases he
  · next o ho =>
    cases hx : exec o.instr s with
    | next u => rw [hx] at he; injection he with he; exact ⟨o, u, ho, hx, he.symm⟩
    | fault f => rw [hx] at he; cases he
    | refused r => rw [hx] at he; cases he

/-- A reverse that answers a next state restored a filled slot of a live instance (R84). -/
theorem reverse_next_cases (he : s.reverse h = .next t) :
    ∃ o, s.insts[h]? = some o ∧ o.live = true ∧ o.slot ≠ .empty ∧
      t = ((s.restore o.slot).clearLive o.slot.written).setSlot h o .empty false := by
  unfold State.reverse at he
  split at he
  · cases he
  · next o ho =>
    split at he
    · next hc =>
      injection he with he
      simp only [Bool.and_eq_true, bne_iff_ne] at hc
      exact ⟨o, ho, hc.1, hc.2, he.symm⟩
    · cases he

@[simp] theorem commitExecute_readReg (s u : State) (h : Nat) (o : Operation) (r : Reg) :
    (s.commitExecute u h o).readReg r = u.readReg r := rfl
@[simp] theorem commitExecute_HI (s u : State) (h : Nat) (o : Operation) : (s.commitExecute u h o).HI = u.HI := rfl
@[simp] theorem commitExecute_LO (s u : State) (h : Nat) (o : Operation) : (s.commitExecute u h o).LO = u.LO := rfl
@[simp] theorem commitExecute_ovfCount (s u : State) (h : Nat) (o : Operation) : (s.commitExecute u h o).ovfCount = u.ovfCount := rfl
@[simp] theorem commitExecute_out (s u : State) (h : Nat) (o : Operation) : (s.commitExecute u h o).out = u.out := rfl
@[simp] theorem commitExecute_status (s u : State) (h : Nat) (o : Operation) : (s.commitExecute u h o).status = u.status := rfl
@[simp] theorem commitExecute_params (s u : State) (h : Nat) (o : Operation) : (s.commitExecute u h o).params = u.params := rfl
@[simp] theorem commitExecute_commands (s u : State) (h : Nat) (o : Operation) : (s.commitExecute u h o).commands = u.commands := rfl

/-- A construct or a decode that completes appends one fresh instance of an instruction in force and does nothing else (R81). -/
theorem construct_next_cases {k : KindName} {v : OperandValues} (hc : s.construct k v = .next t) :
    ∃ kind, k = .known kind ∧ s.params.admits kind = true ∧ constructViolation v kind = none ∧
      t = s.addOperation (instrOfValues v kind) := by
  unfold State.construct at hc
  split at hc
  · cases hc
  · next kind =>
    split at hc
    · next ha =>
      cases hv : constructViolation v kind with
      | none => rw [hv] at hc; injection hc with hc; exact ⟨kind, rfl, ha, hv, hc.symm⟩
      | some f => rw [hv] at hc; cases hc
    · cases hc

theorem decodeWord_next_cases {w : Word} (hd : s.decodeWord w = .next t) :
    ∃ i, decode s.params w = .instr i ∧ t = s.addOperation i := by
  unfold State.decodeWord at hd
  split at hd
  · next i hi => injection hd with hd; exact ⟨i, hi, hd.symm⟩
  · cases hd
  · cases hd

theorem instrOfValues_kind (v : OperandValues) (k : Kind) : (instrOfValues v k).kind = k := by cases k <;> rfl

/-- The first violation of R226's order is absent exactly when the values are in range. -/
theorem constructViolation_eq_none_iff (v : OperandValues) (k : Kind) :
    constructViolation v k = none ↔ v.wellFormed k = true := by
  cases k <;>
    simp only [constructViolation, registerValues, lastOperandViolation, OperandValues.wellFormed, List.find?] <;>
    cases registerInRange v.rs <;> cases registerInRange v.rt <;> cases registerInRange v.rd <;>
    cases immediateInRange v.imm <;> cases shiftAmountInRange v.sa <;> simp

/-- All a command that completes can do to the state. -/
theorem perform_next_cases (hp : s.perform c = .next t) :
    (∃ i, ((∃ k v, c = .construct k v) ∨ ∃ w, c = .decode w) ∧ i.wellFormed s.params = true ∧ t = s.addOperation i) ∨
    (∃ h o u, c = .execute h ∧ s.insts[h]? = some o ∧ exec o.instr s = .next u ∧ t = s.commitExecute u h o) ∨
    (∃ h o, c = .reverse h ∧ s.insts[h]? = some o ∧ o.live = true ∧ o.slot ≠ .empty ∧
      t = ((s.restore o.slot).clearLive o.slot.written).setSlot h o .empty false) ∨
    (∃ w, ((∃ i, c = .read i) ∨ c = .readHI ∨ c = .readLO) ∧ t = s.answer w) ∨
    (∃ i w, c = .write i w ∧ registerInRange i = true ∧ t = (s.writeReg (regOfInt i) w).clearLive (.reg (regOfInt i))) ∨
    (∃ hi lo, ((c = .writeHI hi ∧ lo = s.LO) ∨ (c = .writeLO lo ∧ hi = s.HI)) ∧ t = (s.writePair hi lo).clearLive .hiLo) := by
  cases c with
  | construct k v =>
    obtain ⟨kind, rfl, ha, _, rfl⟩ := construct_next_cases hp
    exact .inl ⟨_, .inl ⟨_, _, rfl⟩, by simpa [Instr.wellFormed, instrOfValues_kind] using ha, rfl⟩
  | decode w =>
    obtain ⟨i, hi, rfl⟩ := decodeWord_next_cases hp
    exact .inl ⟨i, .inr ⟨w, rfl⟩, wellFormed_of_decode hi, rfl⟩
  | execute h =>
    obtain ⟨o, u, ho, he, rfl⟩ := execute_next_cases hp
    exact .inr (.inl ⟨h, o, u, rfl, ho, he, rfl⟩)
  | reverse h =>
    obtain ⟨o, ho, hl, hs, rfl⟩ := reverse_next_cases hp
    exact .inr (.inr (.inl ⟨h, o, rfl, ho, hl, hs, rfl⟩))
  | encode h => simp only [State.perform, State.encodeAccessor] at hp; split at hp <;> cases hp
  | read i =>
    simp only [State.perform, State.readCommand] at hp
    split at hp
    · cases hp; exact .inr (.inr (.inr (.inl ⟨_, .inl ⟨i, rfl⟩, rfl⟩)))
    · cases hp
  | write i w =>
    simp only [State.perform, State.writeCommand] at hp
    split at hp
    · next hi => cases hp; exact .inr (.inr (.inr (.inr (.inl ⟨i, w, rfl, hi, rfl⟩))))
    · cases hp
  | readHI => cases hp; exact .inr (.inr (.inr (.inl ⟨_, .inr (.inl rfl), rfl⟩)))
  | writeHI w => cases hp; exact .inr (.inr (.inr (.inr (.inr ⟨w, s.LO, .inl ⟨rfl, rfl⟩, rfl⟩))))
  | readLO => cases hp; exact .inr (.inr (.inr (.inl ⟨_, .inr (.inr rfl), rfl⟩)))
  | writeLO w => cases hp; exact .inr (.inr (.inr (.inr (.inr ⟨s.HI, w, .inr ⟨rfl, rfl⟩, rfl⟩))))

end Sys2Proof.Machine
end

