-- ==== Sys2Proof/Laws/PerInstr.lean ====
section
/-! SUPPORT. The family EncodingRow, one lemma per constructor of Instr: its encoded word fits its own row of the opcode map and gives back
its own operands (30_encoding.md R55, R56, R60). -/

namespace Sys2Proof.Laws.EncodingRow

/-- The word of `i` fits the row of its kind, its fields are the operands of `i`, and the extra condition of CLO and CLZ holds. -/
def Statement (i : Instr) : Prop :=
  ∃ r ∈ opcodeRows, r.kind = i.kind ∧ r.fits (encode i) = true ∧ instrOfFields (encode i) i.kind = i ∧
    (i.kind.requiresRtEqRd = true → rtField (encode i) = rdField (encode i))

/-- An R-format word fits a row. -/
theorem rFormat_fits (r : OpcodeRow) (op funct : BitVec 6) (rs rt rd : Reg) (sa : Fin 32)
    (h : ∀ i, i < 32 → ((if i < 6 then funct.getLsbD i
      else if i < 11 then (BitVec.ofNat 5 sa.val).getLsbD (i - 6)
      else if i < 16 then (BitVec.ofNat 5 rd.val).getLsbD (i - 11)
      else if i < 21 then (BitVec.ofNat 5 rt.val).getLsbD (i - 16)
      else if i < 26 then (BitVec.ofNat 5 rs.val).getLsbD (i - 21)
      else op.getLsbD (i - 26)) && r.mask.getLsbD i) = r.pattern.getLsbD i) : r.fits (rFormat op rs rt rd sa funct) = true :=
  fits_of_bits fun i hi => by rw [getLsbD_rFormat _ _ _ _ _ _ hi]; exact h i hi

/-- An I-format word fits a row. -/
theorem iFormat_fits (r : OpcodeRow) (op : BitVec 6) (rs rt : Reg) (imm16 : BitVec 16)
    (h : ∀ i, i < 32 → ((if i < 16 then imm16.getLsbD i
      else if i < 21 then (BitVec.ofNat 5 rt.val).getLsbD (i - 16)
      else if i < 26 then (BitVec.ofNat 5 rs.val).getLsbD (i - 21)
      else op.getLsbD (i - 26)) && r.mask.getLsbD i) = r.pattern.getLsbD i) : r.fits (iFormat op rs rt imm16) = true :=
  fits_of_bits fun i hi => by rw [getLsbD_iFormat _ _ _ _ hi]; exact h i hi

theorem add (rs : Reg) (rt : Reg) (rd : Reg) : Statement (.add rs rt rd) :=
  ⟨opcodeRows[0], by simp, rfl, rFormat_fits _ _ _ _ _ _ _ fun i hi => by interval_cases i <;> simp [opcodeRows, sourceRows, extensionRows],
    by simp [encode, Instr.kind, instrOfFields], by simp [encode, Instr.kind, Kind.requiresRtEqRd]⟩

theorem addi (rs : Reg) (imm16 : BitVec 16) (rt : Reg) : Statement (.addi rs imm16 rt) :=
  ⟨opcodeRows[1], by simp, rfl, iFormat_fits _ _ _ _ _ fun i hi => by interval_cases i <;> simp [opcodeRows, sourceRows, extensionRows],
    by simp [encode, Instr.kind, instrOfFields], by simp [encode, Instr.kind, Kind.requiresRtEqRd]⟩

theorem addiu (rs : Reg) (imm16 : BitVec 16) (rt : Reg) : Statement (.addiu rs imm16 rt) :=
  ⟨opcodeRows[2], by simp, rfl, iFormat_fits _ _ _ _ _ fun i hi => by interval_cases i <;> simp [opcodeRows, sourceRows, extensionRows],
    by simp [encode, Instr.kind, instrOfFields], by simp [encode, Instr.kind, Kind.requiresRtEqRd]⟩

theorem addu (rs : Reg) (rt : Reg) (rd : Reg) : Statement (.addu rs rt rd) :=
  ⟨opcodeRows[3], by simp, rfl, rFormat_fits _ _ _ _ _ _ _ fun i hi => by interval_cases i <;> simp [opcodeRows, sourceRows, extensionRows],
    by simp [encode, Instr.kind, instrOfFields], by simp [encode, Instr.kind, Kind.requiresRtEqRd]⟩

theorem clo (rs : Reg) (rd : Reg) : Statement (.clo rs rd) :=
  ⟨opcodeRows[4], by simp, rfl, rFormat_fits _ _ _ _ _ _ _ fun i hi => by interval_cases i <;> simp [opcodeRows, sourceRows, extensionRows],
    by simp [encode, Instr.kind, instrOfFields], by simp [encode, Instr.kind, Kind.requiresRtEqRd]⟩

theorem clz (rs : Reg) (rd : Reg) : Statement (.clz rs rd) :=
  ⟨opcodeRows[5], by simp, rfl, rFormat_fits _ _ _ _ _ _ _ fun i hi => by interval_cases i <;> simp [opcodeRows, sourceRows, extensionRows],
    by simp [encode, Instr.kind, instrOfFields], by simp [encode, Instr.kind, Kind.requiresRtEqRd]⟩

theorem div (rs : Reg) (rt : Reg) : Statement (.div rs rt) :=
  ⟨opcodeRows[6], by simp, rfl, rFormat_fits _ _ _ _ _ _ _ fun i hi => by interval_cases i <;> simp [opcodeRows, sourceRows, extensionRows],
    by simp [encode, Instr.kind, instrOfFields], by simp [encode, Instr.kind, Kind.requiresRtEqRd]⟩

theorem divu (rs : Reg) (rt : Reg) : Statement (.divu rs rt) :=
  ⟨opcodeRows[7], by simp, rfl, rFormat_fits _ _ _ _ _ _ _ fun i hi => by interval_cases i <;> simp [opcodeRows, sourceRows, extensionRows],
    by simp [encode, Instr.kind, instrOfFields], by simp [encode, Instr.kind, Kind.requiresRtEqRd]⟩

theorem madd (rs : Reg) (rt : Reg) : Statement (.madd rs rt) :=
  ⟨opcodeRows[8], by simp, rfl, rFormat_fits _ _ _ _ _ _ _ fun i hi => by interval_cases i <;> simp [opcodeRows, sourceRows, extensionRows],
    by simp [encode, Instr.kind, instrOfFields], by simp [encode, Instr.kind, Kind.requiresRtEqRd]⟩

theorem maddu (rs : Reg) (rt : Reg) : Statement (.maddu rs rt) :=
  ⟨opcodeRows[9], by simp, rfl, rFormat_fits _ _ _ _ _ _ _ fun i hi => by interval_cases i <;> simp [opcodeRows, sourceRows, extensionRows],
    by simp [encode, Instr.kind, instrOfFields], by simp [encode, Instr.kind, Kind.requiresRtEqRd]⟩

theorem msub (rs : Reg) (rt : Reg) : Statement (.msub rs rt) :=
  ⟨opcodeRows[10], by simp, rfl, rFormat_fits _ _ _ _ _ _ _ fun i hi => by interval_cases i <;> simp [opcodeRows, sourceRows, extensionRows],
    by simp [encode, Instr.kind, instrOfFields], by simp [encode, Instr.kind, Kind.requiresRtEqRd]⟩

theorem msubu (rs : Reg) (rt : Reg) : Statement (.msubu rs rt) :=
  ⟨opcodeRows[11], by simp, rfl, rFormat_fits _ _ _ _ _ _ _ fun i hi => by interval_cases i <;> simp [opcodeRows, sourceRows, extensionRows],
    by simp [encode, Instr.kind, instrOfFields], by simp [encode, Instr.kind, Kind.requiresRtEqRd]⟩

theorem mul (rs : Reg) (rt : Reg) (rd : Reg) : Statement (.mul rs rt rd) :=
  ⟨opcodeRows[12], by simp, rfl, rFormat_fits _ _ _ _ _ _ _ fun i hi => by interval_cases i <;> simp [opcodeRows, sourceRows, extensionRows],
    by simp [encode, Instr.kind, instrOfFields], by simp [encode, Instr.kind, Kind.requiresRtEqRd]⟩

theorem mult (rs : Reg) (rt : Reg) : Statement (.mult rs rt) :=
  ⟨opcodeRows[13], by simp, rfl, rFormat_fits _ _ _ _ _ _ _ fun i hi => by interval_cases i <;> simp [opcodeRows, sourceRows, extensionRows],
    by simp [encode, Instr.kind, instrOfFields], by simp [encode, Instr.kind, Kind.requiresRtEqRd]⟩

theorem multu (rs : Reg) (rt : Reg) : Statement (.multu rs rt) :=
  ⟨opcodeRows[14], by simp, rfl, rFormat_fits _ _ _ _ _ _ _ fun i hi => by interval_cases i <;> simp [opcodeRows, sourceRows, extensionRows],
    by simp [encode, Instr.kind, instrOfFields], by simp [encode, Instr.kind, Kind.requiresRtEqRd]⟩

theorem seb (rt : Reg) (rd : Reg) : Statement (.seb rt rd) :=
  ⟨opcodeRows[15], by simp, rfl, rFormat_fits _ _ _ _ _ _ _ fun i hi => by interval_cases i <;> simp [opcodeRows, sourceRows, extensionRows],
    by simp [encode, Instr.kind, instrOfFields], by simp [encode, Instr.kind, Kind.requiresRtEqRd]⟩

theorem seh (rt : Reg) (rd : Reg) : Statement (.seh rt rd) :=
  ⟨opcodeRows[16], by simp, rfl, rFormat_fits _ _ _ _ _ _ _ fun i hi => by interval_cases i <;> simp [opcodeRows, sourceRows, extensionRows],
    by simp [encode, Instr.kind, instrOfFields], by simp [encode, Instr.kind, Kind.requiresRtEqRd]⟩

theorem sub (rs : Reg) (rt : Reg) (rd : Reg) : Statement (.sub rs rt rd) :=
  ⟨opcodeRows[17], by simp, rfl, rFormat_fits _ _ _ _ _ _ _ fun i hi => by interval_cases i <;> simp [opcodeRows, sourceRows, extensionRows],
    by simp [encode, Instr.kind, instrOfFields], by simp [encode, Instr.kind, Kind.requiresRtEqRd]⟩

theorem subu (rs : Reg) (rt : Reg) (rd : Reg) : Statement (.subu rs rt rd) :=
  ⟨opcodeRows[18], by simp, rfl, rFormat_fits _ _ _ _ _ _ _ fun i hi => by interval_cases i <;> simp [opcodeRows, sourceRows, extensionRows],
    by simp [encode, Instr.kind, instrOfFields], by simp [encode, Instr.kind, Kind.requiresRtEqRd]⟩

theorem sll (rt : Reg) (rd : Reg) (sa : ShiftAmount) : Statement (.sll rt rd sa) :=
  ⟨opcodeRows[19], by simp, rfl, rFormat_fits _ _ _ _ _ _ _ fun i hi => by interval_cases i <;> simp [opcodeRows, sourceRows, extensionRows],
    by simp [encode, Instr.kind, instrOfFields], by simp [encode, Instr.kind, Kind.requiresRtEqRd]⟩

theorem srl (rt : Reg) (rd : Reg) (sa : ShiftAmount) : Statement (.srl rt rd sa) :=
  ⟨opcodeRows[20], by simp, rfl, rFormat_fits _ _ _ _ _ _ _ fun i hi => by interval_cases i <;> simp [opcodeRows, sourceRows, extensionRows],
    by simp [encode, Instr.kind, instrOfFields], by simp [encode, Instr.kind, Kind.requiresRtEqRd]⟩

theorem sra (rt : Reg) (rd : Reg) (sa : ShiftAmount) : Statement (.sra rt rd sa) :=
  ⟨opcodeRows[21], by simp, rfl, rFormat_fits _ _ _ _ _ _ _ fun i hi => by interval_cases i <;> simp [opcodeRows, sourceRows, extensionRows],
    by simp [encode, Instr.kind, instrOfFields], by simp [encode, Instr.kind, Kind.requiresRtEqRd]⟩

theorem rotr (rt : Reg) (rd : Reg) (sa : ShiftAmount) : Statement (.rotr rt rd sa) :=
  ⟨opcodeRows[22], by simp, rfl, rFormat_fits _ _ _ _ _ _ _ fun i hi => by interval_cases i <;> simp [opcodeRows, sourceRows, extensionRows],
    by simp [encode, Instr.kind, instrOfFields], by simp [encode, Instr.kind, Kind.requiresRtEqRd]⟩

end Sys2Proof.Laws.EncodingRow
end

