-- ==== Sys2Proof/Laws/Steps.lean ====
section
/-! SUPPORT. How a step follows from its command, what the relations of Safety.lean say of the shared operations, and what the commands do to
one instance of the list. -/

namespace Sys2Proof.Machine

variable {s t u : State} {c : Command} {rest : List Command} {h g : Nat} {o p : Operation}

/-! ### Steps -/

theorem step_of_perform_next (hr : s.status = .running) (hc : s.commands = c :: rest) (hp : (s.take rest).perform c = .next u) :
    step s = .next u := by
  rw [step_of_command hr hc, hp]; rfl

theorem step_of_perform_fault {f : Fault} (hr : s.status = .running) (hc : s.commands = c :: rest)
    (hp : (s.take rest).perform c = .fault f) : ∃ t, step s = .next t ∧ TurnedAway s rest (.faulted f) t :=
  ⟨_, by rw [step_of_command hr hc, hp]; rfl, rfl⟩

theorem step_of_perform_refused {r : Refusal} (hr : s.status = .running) (hc : s.commands = c :: rest)
    (hp : (s.take rest).perform c = .refused r) : ∃ t, step s = .next t ∧ TurnedAway s rest (.refused r) t :=
  ⟨_, by rw [step_of_command hr hc, hp]; rfl, rfl⟩

theorem core_run_succ {M : Host.Core} (k : Nat) (s t : M.State) (hs : M.step s = .next t) : M.run (k + 1) s = M.run k t := by
  simp [Host.Core.run, hs]

theorem run_succ (k : Nat) (hs : step s = .next t) : Host.Core.run Sys2Proof.core (k + 1) s = Host.Core.run Sys2Proof.core k t :=
  core_run_succ (M := Sys2Proof.core) k s t hs

/-- A step over an execute that leaves the block running ran the rule of a known instance (R82, R224). -/
theorem step_execute_cases (hc : s.commands = .execute h :: rest) (hs : step s = .next t) (ht : t.status = .running) :
    s.status = .running ∧ ∃ o u, s.insts[h]? = some o ∧ exec o.instr (s.take rest) = .next u ∧
      t = (s.take rest).commitExecute u h o := by
  obtain ⟨hr, hx⟩ := step_cases hs
  rcases hx with ⟨he, _⟩ | ⟨c', rest', hc', hx⟩
  · rw [he] at hc; cases hc
  rw [hc] at hc'; injection hc' with e1 e2; subst e1 e2
  rcases hx with hp | ⟨f, hp, rfl⟩ | ⟨r, hp, rfl⟩
  · obtain ⟨o, u, ho, he, rfl⟩ := execute_next_cases hp
    exact ⟨hr, o, u, ho, he, rfl⟩
  · cases ht
  · cases ht

theorem reverse_of_live (ho : s.insts[h]? = some o) (hl : o.live = true) (hs : o.slot ≠ .empty) :
    s.reverse h = .next (((s.restore o.slot).clearLive o.slot.written).setSlot h o .empty false) := by
  simp [State.reverse, ho, hl, hs]

/-! ### The relations between states -/

theorem onlyRegChanged_writeReg (s : State) (d : Reg) (v : Word) : OnlyRegChanged d s (s.writeReg d v) :=
  ⟨fun _ hr => s.readReg_writeReg_of_ne v hr, rfl, rfl, rfl, rfl, ⟨rfl, rfl, rfl, rfl⟩⟩

theorem onlyPairChanged_writePair (s : State) (hi lo : Word) : OnlyPairChanged s (s.writePair hi lo) :=
  ⟨fun _ => rfl, rfl, rfl, ⟨rfl, rfl, rfl, rfl⟩⟩

theorem onlyTrapSignalled_signal (s : State) : OnlyTrapSignalled s s.signalOverflowTrap :=
  ⟨fun _ => rfl, rfl, rfl, rfl, rfl, rfl, ⟨rfl, rfl, rfl, rfl⟩⟩

theorem holdsAcc_writeAcc (s : State) (R : DWord) : HoldsAcc s.params R (s.writeAcc R) := ⟨rfl, rfl⟩

theorem placed_place (s : State) (m : Place) (q r : Word) : Placed m q r (s.place m q r) := by
  cases m <;> exact ⟨rfl, rfl⟩

theorem onlyPairChanged_place (s : State) (m : Place) (q r : Word) : OnlyPairChanged s (s.place m q r) := by
  cases m <;> exact onlyPairChanged_writePair _ _ _

/-- A row whose rule has no `rt = rd` condition decodes as its fields say, whenever it is in force (R60). -/
theorem decodesAs_of_row {on : Params → Prop} {r : OpcodeRow} (hr : r ∈ opcodeRows) (hon : ∀ P, on P → P.admits r.kind = true)
    (hq : r.kind.requiresRtEqRd = false) : DecodesAs on r.mask r.pattern fun w => instrOfFields w r.kind :=
  fun P w ho hw => decode_of_fits hr (hon P ho) ((OpcodeRow.fits_iff _ _).2 hw) (by simp [hq])

theorem refusedWhile_of_row {off : Params → Prop} {r : OpcodeRow} (hr : r ∈ opcodeRows)
    (hoff : ∀ P, off P → P.admits r.kind = false) : RefusedWhile off r.mask r.pattern :=
  fun P _ ho hw => decode_of_selects hr (selects_of_fits hr ((OpcodeRow.fits_iff _ _).2 hw)) (hoff P ho)

/-! ### One instance of the list -/

theorem State.restore_surroundings (s : State) (v : Slot) : SameSurroundings s (s.restore v) := by
  cases v <;> exact ⟨rfl, rfl, rfl, rfl⟩

@[simp] theorem State.restore_ovfCount (s : State) (v : Slot) : (s.restore v).ovfCount = s.ovfCount := by cases v <;> rfl
@[simp] theorem State.restore_out (s : State) (v : Slot) : (s.restore v).out = s.out := by cases v <;> rfl

theorem State.priorValue_fits (s : State) (d : Dest) : (s.priorValue d).fits d := by
  cases d <;> simp [State.priorValue, Slot.fits]

theorem State.priorValue_ne_empty (s : State) (d : Dest) : s.priorValue d ≠ .empty := by
  cases d <;> simp [State.priorValue]

/-- A destination set written whole meets itself and no other. -/
theorem Dest.written_meets (a b : Dest) : a.written.meets b = decide (b = a) := by
  cases a <;> cases b <;> simp [Dest.written, Written.meets, eq_comm, Bool.beq_eq_decide_eq]

/-- A filled slot of the right shape restores exactly its instance's destination set. -/
theorem Slot.written_of_fits {v : Slot} {d : Dest} (hv : v ≠ .empty) (hf : v.fits d) : v.written = d.written := by
  cases v with
  | empty => exact absurd rfl hv
  | reg i w => simp only [Slot.fits] at hf; rw [hf]; rfl
  | pair a b => simp only [Slot.fits] at hf; rw [hf]; rfl

theorem State.clearLive_getElem? (s : State) (d : Dest) (hp : s.insts[g]? = some p) :
    (s.clearLive d.written).insts[g]? = some { p with live := if destOf p.instr = d then false else p.live } := by
  simp only [State.clearLive, List.getElem?_map, hp, Option.map_some, Dest.written_meets, decide_eq_true_eq]
  split <;> rfl

theorem State.clearLive_nothing (s : State) : (s.clearLive .nothing).insts = s.insts := by
  simp [State.clearLive, Written.meets]

theorem State.setSlot_getElem?_of_ne (s : State) (o : Operation) (v : Slot) (l : Bool) (hg : g ≠ h) :
    (s.setSlot h o v l).insts[g]? = s.insts[g]? := by
  simp [State.setSlot, hg.symm]

theorem State.setSlot_getElem?_self (s : State) (o : Operation) (v : Slot) (l : Bool) (hl : h < s.insts.length) :
    (s.setSlot h o v l).insts[h]? = some { o with slot := v, live := l } := by
  simp [State.setSlot, hl]

theorem lt_length_of_getElem? {l : List Operation} (ho : l[h]? = some o) : h < l.length := (List.getElem?_eq_some_iff.1 ho).1

/-- What an execute that completed leaves in its own instance (R82, R83). -/
theorem commitExecute_getElem?_self (hi : u.insts = s.insts) (ho : s.insts[h]? = some o) :
    (s.commitExecute u h o).insts[h]? = some { o with slot := s.priorValue (destOf o.instr), live := true } := by
  apply State.setSlot_getElem?_self
  simpa [hi] using lt_length_of_getElem? ho

/-- And in every other one (R32). -/
theorem commitExecute_getElem?_of_ne (hi : u.insts = s.insts) (hg : g ≠ h) (hp : s.insts[g]? = some p) :
    (s.commitExecute u h o).insts[g]? =
      some { p with live := if u.out.trap = false ∧ destOf p.instr = destOf o.instr then false else p.live } := by
  rw [State.commitExecute, State.setSlot_getElem?_of_ne _ _ _ _ hg]
  cases ht : u.out.trap with
  | true => rw [writtenBy, ht, if_pos rfl, State.clearLive_nothing, hi, hp]; simp
  | false => rw [writtenBy, ht, if_neg (by simp), State.clearLive_getElem? u (destOf o.instr) (hi ▸ hp)]; simp

/-- Clearing `live` bits keeps every kind and operand (R31). -/
theorem State.clearLive_instrs (s : State) (w : Written) :
    (s.clearLive w).insts.map Operation.instr = s.insts.map Operation.instr := by
  simp only [State.clearLive, List.map_map]
  apply List.map_congr_left
  intro o _
  simp only [Function.comp]
  split <;> rfl

theorem sound_clearLive {P : Params} (hs : ∀ o ∈ s.insts, o.Sound P) (w : Written) : ∀ o ∈ (s.clearLive w).insts, o.Sound P := by
  intro o ho
  simp only [State.clearLive, List.mem_map] at ho
  obtain ⟨p, hp, rfl⟩ := ho
  split
  · exact ⟨(hs p hp).kind, (hs p hp).slot, by simp⟩
  · exact hs p hp

theorem sound_set {P : Params} {l : List Operation} (hs : ∀ o ∈ l, o.Sound P) (k : Nat) (ho : o.Sound P) :
    ∀ q ∈ l.set k o, q.Sound P := by
  intro q hq
  rcases List.mem_or_eq_of_mem_set hq with h1 | rfl
  · exact hs q h1
  · exact ho

/-! ### Construct -/

/-- The first register index out of range is the violation (R226). -/
theorem constructViolation_of_index {v : OperandValues} {k : Kind} {pre post : List Int} {n : Int}
    (hv : registerValues v k = pre ++ n :: post) (hp : ∀ m ∈ pre, 0 ≤ m ∧ m ≤ 31) (hn : ¬ (0 ≤ n ∧ n ≤ 31)) :
    constructViolation v k = some (.contractIndex n) := by
  have hpre : pre.find? (fun n => !registerInRange n) = none := by
    rw [List.find?_eq_none]; intro m hm; simp [registerInRange, hp m hm]
  have hbad : registerInRange n = false := by
    by_contra hc; exact hn (by simpa [registerInRange] using hc)
  simp [constructViolation, hv, List.find?_append, hpre, hbad]

theorem constructViolation_of_registers {v : OperandValues} {k : Kind} (hp : ∀ m ∈ registerValues v k, 0 ≤ m ∧ m ≤ 31) :
    constructViolation v k = lastOperandViolation v k := by
  have : (registerValues v k).find? (fun n => !registerInRange n) = none := by
    rw [List.find?_eq_none]; intro m hm; simp [registerInRange, hp m hm]
  simp [constructViolation, this]

end Sys2Proof.Machine
end

