-- ==== Sys2Proof/Tests/Slice0.lean ====
section
/-! SUPPORT. Tests of the model's author: the checks of WellFormed, the decoding of a word of every constructor, one or two vectors of
95_test_vectors.md for every instruction, and for every statement with hypotheses a concrete state that meets them. -/

namespace Sys2Proof.Tests

open Sys2Proof Sys2Proof.Machine

/-- The reset state with some registers written. -/
def regs (l : List (Reg × Word)) : State := l.foldl (fun s p => s.writeReg p.1 p.2) State.reset

/-- The same with HI and LO written. -/
def pair (hi lo : Word) (s : State) : State := s.writePair hi lo

/-- The same with commands issued and instances constructed. -/
def driven (l : List Instr) (c : List Command) (s : State) : State :=
  { l.foldl (fun s i => s.addOperation i) s with commands := c }

/-- The next state of an outcome, or the given one. -/
def after (s : State) : Outcome → State
  | .next t => t
  | .fault _ => s
  | .refused _ => s

def isNext : Outcome → Bool
  | .next _ => true
  | .fault _ => false
  | .refused _ => false

theorem eq_next {s : State} {o : Outcome} (h : isNext o = true) : o = .next (after s o) := by cases o <;> simp_all [isNext, after]

/-- The state after one step. -/
def next (s : State) : State := after s (step s)

theorem step_eq_next {s : State} (h : isNext (step s) = true) : step s = .next (next s) := eq_next h

def shifts : Params := { Params.defaults with extShift := true }
def subs : Params := { Params.defaults with extSub := true }

/-! ### WellFormed refuses what is ill-formed (R23, R80, R81) -/

theorem test_wf_sub_needs_parameter : (Instr.sub 1 2 3).wellFormed Params.defaults = false ∧ (Instr.sub 1 2 3).wellFormed subs = true := by decide
theorem test_wf_sll_needs_parameter : (Instr.sll 1 2 4).wellFormed subs = false ∧ (Instr.sll 1 2 4).wellFormed shifts = true := by decide
theorem test_wf_register_range : registerInRange 32 = false ∧ registerInRange (-1) = false ∧ registerInRange 31 = true := by decide
theorem test_wf_immediate_range :
    immediateInRange 40000 = false ∧ immediateInRange (-32769) = false ∧ immediateInRange (-32768) = true ∧ immediateInRange 32767 = true := by
  decide
theorem test_wf_shift_range : shiftAmountInRange 32 = false ∧ shiftAmountInRange (-1) = false ∧ shiftAmountInRange 31 = true := by decide
theorem test_wf_operands : ({ rs := 1, rt := 2, rd := 32 } : OperandValues).wellFormed .add = false ∧
    ({ rs := 1, rt := 2, rd := 32 } : OperandValues).wellFormed .mult = true ∧
    ({ rs := 1, imm := 40000, rt := 2 } : OperandValues).wellFormed .addi = false ∧
    ({ rt := 1, rd := 2, sa := 32 } : OperandValues).wellFormed .sll = false := by decide

/-! ### Every constructor's word, from 95_test_vectors.md section 9 (V-DEC) -/

theorem test_decode_add : decode Params.defaults 0x00221820#32 = .instr (.add 1 2 3) := by decide
theorem test_decode_addi : decode Params.defaults 0x20230001#32 = .instr (.addi 1 1#16 3) := by decide
theorem test_decode_addiu : decode Params.defaults 0x2423FFFF#32 = .instr (.addiu 1 0xFFFF#16 3) := by decide
theorem test_decode_addu : decode Params.defaults 0x00A71821#32 = .instr (.addu 5 7 3) := by decide
theorem test_decode_clz : decode Params.defaults 0x70221020#32 = .instr (.clz 1 2) := by decide
theorem test_decode_clo : decode Params.defaults 0x70221021#32 = .instr (.clo 1 2) := by decide
theorem test_decode_seb : decode Params.defaults 0x7C011420#32 = .instr (.seb 1 2) := by decide
theorem test_decode_seh : decode Params.defaults 0x7C011620#32 = .instr (.seh 1 2) := by decide
theorem test_decode_mul : decode Params.defaults 0x70221802#32 = .instr (.mul 1 2 3) := by decide
theorem test_decode_mult : decode Params.defaults 0x00220018#32 = .instr (.mult 1 2) := by decide
theorem test_decode_multu : decode Params.defaults 0x00220019#32 = .instr (.multu 1 2) := by decide
theorem test_decode_madd : decode Params.defaults 0x70220000#32 = .instr (.madd 1 2) := by decide
theorem test_decode_maddu : decode Params.defaults 0x70220001#32 = .instr (.maddu 1 2) := by decide
theorem test_decode_msub : decode Params.defaults 0x70220004#32 = .instr (.msub 1 2) := by decide
theorem test_decode_msubu : decode Params.defaults 0x70220005#32 = .instr (.msubu 1 2) := by decide
theorem test_decode_div : decode Params.defaults 0x0022001A#32 = .instr (.div 1 2) := by decide
theorem test_decode_divu : decode Params.defaults 0x0022001B#32 = .instr (.divu 1 2) := by decide
theorem test_decode_sub : decode Params.defaults 0x00221822#32 = .unsupported 0x00221822#32 ∧
    decode subs 0x00221822#32 = .instr (.sub 1 2 3) := by decide
theorem test_decode_subu : decode Params.defaults 0x00221823#32 = .unsupported 0x00221823#32 ∧
    decode subs 0x00221823#32 = .instr (.subu 1 2 3) := by decide
theorem test_decode_sll : decode Params.defaults 0x00011100#32 = .unsupported 0x00011100#32 ∧
    decode shifts 0x00011100#32 = .instr (.sll 1 2 4) := by decide
theorem test_decode_srl : decode Params.defaults 0x00011102#32 = .unsupported 0x00011102#32 ∧
    decode shifts 0x00011102#32 = .instr (.srl 1 2 4) := by decide
theorem test_decode_sra : decode Params.defaults 0x00011103#32 = .unsupported 0x00011103#32 ∧
    decode shifts 0x00011103#32 = .instr (.sra 1 2 4) := by decide
theorem test_decode_rotr : decode Params.defaults 0x00211102#32 = .unsupported 0x00211102#32 ∧
    decode shifts 0x00211102#32 = .instr (.rotr 1 2 4) := by decide
theorem test_decode_zero : decode Params.defaults 0#32 = .unsupported 0#32 ∧ decode shifts 0#32 = .instr (.sll 0 0 0) := by decide
theorem test_decode_reserved : decode Params.defaults 0x00221860#32 = .reserved 0x00221860#32 ∧
    decode Params.defaults 0x0022181A#32 = .reserved 0x0022181A#32 ∧ decode Params.defaults 0x70231020#32 = .reserved 0x70231020#32 := by decide
theorem test_decode_unsupported : decode Params.defaults 0x0022182A#32 = .unsupported 0x0022182A#32 ∧
    decode Params.defaults 0x00001010#32 = .unsupported 0x00001010#32 ∧ decode Params.defaults 0x8C220000#32 = .unsupported 0x8C220000#32 := by
  decide
/-- The worked words of 45_extensions.md and P5: `sra $4, $1, 4`, `rotr $5, $3, 8`, `srl $6, $1, 31`, `sll $7, $2, 31`. -/
theorem test_decode_extension_program : decode shifts 0x00012103#32 = .instr (.sra 1 4 4) ∧ decode shifts 0x00232A02#32 = .instr (.rotr 3 5 8) ∧
    decode shifts 0x000137C2#32 = .instr (.srl 1 6 31) ∧ decode shifts 0x00023FC0#32 = .instr (.sll 2 7 31) := by decide
/-- Words of P1 to P4 (section 10). -/
theorem test_encode_program_words : encode (.add 1 2 4) = 0x00222020#32 ∧ encode (.addiu 0 0xFFFB#16 0) = 0x2400FFFB#32 ∧
    encode (.clo 3 7) = 0x70673821#32 ∧ encode (.seb 3 8) = 0x7C034420#32 ∧ encode (.mul 1 3 2) = 0x70231002#32 := by decide
theorem test_decode_bytes : decodeBytes { Params.defaults with fetchEndian := some .big } [0x00#8, 0x22#8, 0x18#8, 0x20#8] =
      .decoded (.instr (.add 1 2 3)) [] ∧
    decodeBytes { Params.defaults with fetchEndian := some .little } [0x20#8, 0x18#8, 0x22#8, 0x00#8, 0xAA#8] =
      .decoded (.instr (.add 1 2 3)) [0xAA#8] ∧
    decodeBytes Params.defaults [0x20#8, 0x18#8, 0x22#8] = .truncated ∧
    decodeBytes Params.defaults [0x00#8, 0x22#8, 0x18#8, 0x20#8] = .byteOrderOpen := by decide
theorem test_table_word_admits_extension : decodeTableWord 32 0x00221822 = some (.sub 1 2 3) ∧ decodeTableWord 32 0x00000000 = some (.sll 0 0 0) ∧
    decodeTableWord 32 0x00221820 = some (.add 1 2 3) ∧ decodeTableWord 32 0x0022182A = none := by decide

/-! ### Vectors of 95_test_vectors.md, the case most likely to show a slip; they are also the witnesses of the instruction statements -/

/-- V-ADD row 7: -3 is added. -/
theorem test_add_exact : (after State.reset (exec (.add 1 2 3) (regs [(1, 5#32), (2, 0xFFFFFFFD#32)]))).readReg 3 = 2#32 := by decide
/-- W7: the destination stays and one signal is given. -/
theorem test_add_traps : (fun t : State => (t.readReg 3, t.ovfCount, t.out.trap))
    (after State.reset (exec (.add 1 2 3) (regs [(1, 0x7FFFFFFF#32), (2, 1#32), (3, 0xDEADBEEF#32)]))) = (0xDEADBEEF#32, 1, true) := by decide
/-- V-ADDI row 5: -32768 reaches exactly -2^31. -/
theorem test_addi_exact : (fun t : State => (t.readReg 3, t.ovfCount)) (after State.reset (exec (.addi 1 0x8000#16 3) (regs [(1, 0x80008000#32)]))) =
    (0x80000000#32, 0) := by decide
/-- V-ADDI row 4: one below it traps. -/
theorem test_addi_traps : (fun t : State => (t.readReg 3, t.ovfCount)) (after State.reset (exec (.addi 1 0x8000#16 3) (regs [(1, 0x80007FFF#32)]))) =
    (0#32, 1) := by decide
/-- V-ADDI row 7, ADDIU: the immediate is sign-extended. -/
theorem test_addiu_sign_extends : (after State.reset (exec (.addiu 1 0xFFFF#16 3) (regs []))).readReg 3 = 0xFFFFFFFF#32 := by decide
/-- V-ADD row 1, ADDU. -/
theorem test_addu_wraps : (fun t : State => (t.readReg 3, t.ovfCount)) (after State.reset (exec (.addu 1 2 3) (regs [(1, 0x7FFFFFFF#32), (2, 1#32)]))) =
    (0x80000000#32, 0) := by decide
/-- V-CLZ rows 3 and 2. -/
theorem test_clz : (after State.reset (exec (.clz 1 2) (regs [(1, 0xF#32)]))).readReg 2 = 28#32 ∧
    (after State.reset (exec (.clz 1 2) (regs []))).readReg 2 = 32#32 := by decide
/-- V-CLZ rows 7 and 1. -/
theorem test_clo : (after State.reset (exec (.clo 1 2) (regs [(1, 0xFFFF0000#32)]))).readReg 2 = 16#32 ∧
    (after State.reset (exec (.clo 1 2) (regs [(1, 0xFFFFFFFF#32)]))).readReg 2 = 32#32 := by decide
/-- V-SEB rows 3 and 4. -/
theorem test_seb : (after State.reset (exec (.seb 1 2) (regs [(1, 0x12345680#32)]))).readReg 2 = 0xFFFFFF80#32 ∧
    (after State.reset (exec (.seb 1 2) (regs [(1, 0xFFFFFF7F#32)]))).readReg 2 = 0x7F#32 := by decide
/-- V-SEB rows 7 and 8, SEH. -/
theorem test_seh : (after State.reset (exec (.seh 1 2) (regs [(1, 0xFFFF7FFF#32)]))).readReg 2 = 0x7FFF#32 ∧
    (after State.reset (exec (.seh 1 2) (regs [(1, 0x12348001#32)]))).readReg 2 = 0xFFFF8001#32 := by decide
/-- V-MUL row 1, defaults: `rd` is the multiplicand. -/
theorem test_mul_defaults :
    (after State.reset (exec (.mul 1 2 3) (regs [(1, 0x12345#32), (2, 7#32), (3, 0x10003#32)]))).readReg 3 = 0x69CF#32 := by decide
/-- V-MUL row 1, the other parameters. -/
theorem test_mul_rt_32 : (after State.reset (exec (.mul 1 2 3)
    { regs [(1, 0x12345#32), (2, 7#32), (3, 0x10003#32)] with params := { Params.defaults with mulSecond := .rt, mulWidth := .low32 } })).readReg 3 =
    0x7F6E3#32 := by decide
/-- V-MULT row 6 with the mask, row 5 without it. -/
theorem test_mult : (fun t : State => (t.HI, t.LO)) (after State.reset (exec (.mult 1 2) (regs [(1, 0x12345678#32), (2, 0x9ABCDEF0#32)]))) =
      (0xF8CC93D6#32, 0x2080#32) ∧
    (fun t : State => (t.HI, t.LO)) (after State.reset (exec (.mult 1 2)
      { regs [(1, 0x80000000#32), (2, 0x7FFFFFFF#32)] with params := { Params.defaults with loMask16 := false } })) =
      (0xC0000000#32, 0x80000000#32) := by decide
/-- V-MULT row 10. -/
theorem test_multu : (fun t : State => (t.HI, t.LO)) (after State.reset (exec (.multu 1 2) (regs [(1, 0x12345678#32), (2, 0x9ABCDEF0#32)]))) =
    (0x0B00EA4E#32, 0x2080#32) := by decide
/-- V-MACC row 4: a carry reaches HI. -/
theorem test_madd : (fun t : State => (t.HI, t.LO))
    (after State.reset (exec (.madd 1 2) (pair 0#32 0xFFFFFFFF#32 (regs [(1, 0x10000#32), (2, 0x10000#32)])))) = (1#32, 0xFFFF#32) := by decide
/-- V-MACC row 7: the sum wraps. -/
theorem test_maddu : (fun t : State => (t.HI, t.LO))
    (after State.reset (exec (.maddu 1 2) (pair 0xFFFFFFFF#32 0xFFFFFFFF#32 (regs [(1, 0xFFFFFFFF#32), (2, 0xFFFFFFFF#32)])))) =
    (0xFFFFFFFE#32, 0#32) := by decide
/-- V-MACC row 9. -/
theorem test_msub : (fun t : State => (t.HI, t.LO)) (after State.reset (exec (.msub 1 2) (pair 0#32 5#32 (regs [(1, 2#32), (2, 3#32)])))) =
    (0xFFFFFFFF#32, 0xFFFF#32) := by decide
/-- V-MACC row 14: the difference falls below 0. -/
theorem test_msubu : (fun t : State => (t.HI, t.LO))
    (after State.reset (exec (.msubu 1 2) (regs [(1, 0xFFFFFFFF#32), (2, 0xFFFFFFFF#32)]))) = (1#32, 0xFFFF#32) := by decide
/-- V-DIV rows 2 and 3: truncation, and the placement of DIV. -/
theorem test_div : (fun t : State => (t.HI, t.LO)) (after State.reset (exec (.div 1 2) (regs [(1, 0xFFFFFFF9#32), (2, 2#32)]))) =
      (0xFFFFFFFF#32, 0xFFFFFFFD#32) ∧
    (fun t : State => (t.HI, t.LO)) (after State.reset (exec (.div 1 2) (regs [(1, 7#32), (2, 0xFFFFFFFE#32)]))) = (1#32, 0xFFFFFFFD#32) := by
  decide
/-- V-DIV row 12: the wrapped overflow. -/
theorem test_div_wraps : (fun t : State => (t.HI, t.LO)) (after State.reset (exec (.div 1 2)
    { regs [(1, 0x80000000#32), (2, 0xFFFFFFFF#32)] with params := { Params.defaults with divOvf := .wrap } })) = (0#32, 0x80000000#32) := by decide
/-- V-DIV, DIVU rows 14 and 17: the placement of DIVU, and no overflow. -/
theorem test_divu : (fun t : State => (t.HI, t.LO)) (after State.reset (exec (.divu 1 2) (regs [(1, 7#32), (2, 2#32)]))) = (3#32, 1#32) ∧
    (fun t : State => (t.HI, t.LO)) (after State.reset (exec (.divu 1 2) (regs [(1, 0x80000000#32), (2, 0xFFFFFFFF#32)]))) =
      (0#32, 0x80000000#32) := by decide
/-- V-SUB row 7. -/
theorem test_sub_exact : (after State.reset (exec (.sub 1 2 3) (regs [(1, 0xFFFFFFFF#32), (2, 0x80000000#32)]))).readReg 3 = 0x7FFFFFFF#32 := by decide
/-- V-SUB row 2. -/
theorem test_sub_traps : (fun t : State => (t.readReg 3, t.ovfCount)) (after State.reset (exec (.sub 1 2 3) (regs [(2, 0x80000000#32), (3, 9#32)]))) =
    (9#32, 1) := by decide
/-- V-SUB row 5, SUBU. -/
theorem test_subu : (after State.reset (exec (.subu 1 2 3) (regs [(1, 3#32), (2, 5#32)]))).readReg 3 = 0xFFFFFFFE#32 := by decide
/-- V-SHIFT rows 4 and 3, SLL. -/
theorem test_sll : (after State.reset (exec (.sll 1 2 4) (regs [(1, 0x12345678#32)]))).readReg 2 = 0x23456780#32 ∧
    (after State.reset (exec (.sll 1 2 31) (regs [(1, 0x80000001#32)]))).readReg 2 = 0x80000000#32 := by decide
/-- V-SHIFT rows 5 and 3, SRL. -/
theorem test_srl : (after State.reset (exec (.srl 1 2 4) (regs [(1, 0xF0000000#32)]))).readReg 2 = 0x0F000000#32 ∧
    (after State.reset (exec (.srl 1 2 31) (regs [(1, 0x80000001#32)]))).readReg 2 = 1#32 := by decide
/-- V-SHIFT rows 5 and 3, SRA. -/
theorem test_sra : (after State.reset (exec (.sra 1 2 4) (regs [(1, 0xF0000000#32)]))).readReg 2 = 0xFF000000#32 ∧
    (after State.reset (exec (.sra 1 2 31) (regs [(1, 0x80000001#32)]))).readReg 2 = 0xFFFFFFFF#32 := by decide
/-- V-SHIFT rows 4, 3 and 1, ROTR. -/
theorem test_rotr : (after State.reset (exec (.rotr 1 2 4) (regs [(1, 0x12345678#32)]))).readReg 2 = 0x81234567#32 ∧
    (after State.reset (exec (.rotr 1 2 31) (regs [(1, 0x80000001#32)]))).readReg 2 = 3#32 ∧
    (after State.reset (exec (.rotr 1 2 0) (regs [(1, 0x80000001#32)]))).readReg 2 = 0x80000001#32 := by decide

/-! ### The commands (V-REV) -/

/-- V-REV row 10. -/
theorem test_construct_index : (next (driven [] [.construct (.known .add) { rs := 1, rt := 2, rd := 32 }] State.reset)).status =
    .faulted (.contractIndex 32) := by decide
/-- V-REV row 11. -/
theorem test_construct_immediate : (next (driven [] [.construct (.known .addi) { rs := 1, imm := 40000, rt := 2 }] State.reset)).status =
    .faulted (.contractImmediate 40000) := by decide
/-- V-REV rows 12 and 13. -/
theorem test_construct_unsupported : (next (driven [] [.construct (.known .sub) { rs := 1, rt := 2, rd := 3 }] State.reset)).status =
      .refused (.unsupportedKind (.known .sub)) ∧
    (next (driven [] [.construct (.foreign .ctz) {}] State.reset)).status = .refused (.unsupportedKind (.foreign .ctz)) := by decide
/-- V-REV row 4. -/
theorem test_reverse_first : (next (driven [.addu 1 2 3] [.reverse 0] State.reset)).status = .faulted (.contractReverse 0) := by decide
/-- V-REV row 9. -/
theorem test_encode_stub : (next (driven [.addu 1 2 3] [.encode 0] State.reset)).status = .faulted (.notImplementedEncode 0) := by decide
/-- V-REV row 8. -/
theorem test_divide_by_zero : (fun t : State => (t.status, t.HI, t.LO, t.insts.map Operation.slot))
    (next (driven [.div 1 2] [.execute 0] (pair 1#32 2#32 (regs [(1, 5#32)])))) =
    (.faulted (.divideByZero 1 2), 1#32, 2#32, [.empty]) := by decide
/-- V-REV row 2: the source's old value is saved and restored. -/
theorem test_execute_reverse : (fun t : State => (t.readReg 3, t.insts.map Operation.live))
    (next (next (driven [.addu 3 4 3] [.execute 0, .reverse 0] (regs [(3, 5#32), (4, 6#32)])))) = (5#32, [false]) := by decide
/-- V-REV row 6: a driver's write clears `live`. -/
theorem test_write_clears_live : (next (driven [.addu 1 2 3] [.execute 0, .write 3 9#32] State.reset) |> next).insts.map Operation.live =
    [false] := by decide
/-- The rows of the opcode table run as the first instruction after reset (log 7). -/
theorem test_word_runs_after_reset : isNext (step (State.reset.withFetchWord 32 0x00221820)) = true ∧
    isNext (step (State.reset.withFetchWord 32 0x00000000)) = true ∧ (next (State.reset.withFetchWord 32 0x00000000)).status = .running ∧
    (next (State.reset.withFetchWord 32 0x0022001A)).status = .faulted (.divideByZero 1 2) ∧
    (next (State.reset.withFetchWord 32 0x0022182A)).status = .refused (.unsupportedWord 0x0022182A#32) := by decide

/-! ### Witnesses: a state that meets the hypotheses of each statement that has some -/

/-- A block with two instances that write register 3, the first one executed. -/
def twoAdds : State := next (driven [.addu 1 2 3, .addi 1 1#16 3] [.execute 0, .execute 1, .reverse 1, .reverse 0] (regs [(1, 4#32), (2, 5#32)]))

theorem witness_EveryRegisterKeepsWhatIsWritten :
    let s := driven [] [.write 0 7#32, .read 0] (regs [(1, 4#32)])
    s.status = .running ∧ s.commands = .write ((0 : Reg).val : Int) 7#32 :: .read ((0 : Reg).val : Int) :: [] ∧
      (next (next s)).out.result = .word 7#32 := by decide
theorem witness_InstructionsWriteOnlyTheirDestination :
    exec (.addu 1 2 3) (regs [(1, 4#32)]) = .next (after State.reset (exec (.addu 1 2 3) (regs [(1, 4#32)]))) :=
  eq_next (by decide)
/-- A step that overflows. -/
theorem witness_OnlyOverflowingAddsAndSubSignalTheTrap_traps :
    let s := driven [.add 1 2 3] [.execute 0] (regs [(1, 0x7FFFFFFF#32), (2, 1#32)])
    s.commands = .execute 0 :: [] ∧ Overflows s (.execute 0) ∧ step s = .next (next s) :=
  ⟨rfl, ⟨0, _, _, rfl, rfl, rfl, by decide⟩, step_eq_next (by decide)⟩
/-- A step that does not. -/
theorem witness_OnlyOverflowingAddsAndSubSignalTheTrap_completes :
    let s := driven [] [.readHI] (regs [])
    s.commands = .readHI :: [] ∧ ¬ Overflows s .readHI ∧ step s = .next (next s) := by
  refine ⟨rfl, fun h => ?_, step_eq_next (by decide)⟩
  obtain ⟨_, _, _, h, _⟩ := h
  cases h
theorem witness_KindsOperandsAndParametersNeverChange : step (driven [] [.decode 0x00221820#32] State.reset) =
    .next (next (driven [] [.decode 0x00221820#32] State.reset)) := step_eq_next (by decide)
theorem sound_of_empty_slots {s : State} (h : s.insts.all (fun o => o.instr.wellFormed s.params && o.slot == .empty && !o.live) = true) : s.Sound := by
  intro o ho
  have := List.all_eq_true.mp h o ho
  simp only [Bool.and_eq_true, beq_iff_eq, Bool.not_eq_true'] at this
  exact ⟨this.1.1, by rw [this.1.2]; trivial, by simp [this.2]⟩
theorem witness_LiveBitsFollowEveryCommand :
    let s := driven [.addu 1 2 3, .addi 1 1#16 3] [.execute 0] (regs [(1, 4#32), (2, 5#32)])
    s.Sound ∧ s.commands = .execute 0 :: [] ∧ step s = .next (next s) ∧ (next s).status = .running ∧ s.insts[1]?.isSome = true :=
  ⟨sound_of_empty_slots (by decide), rfl, step_eq_next (by decide), by decide, by decide⟩
theorem witness_EveryStepKeepsInstancesSound :
    let s := driven [.mult 1 2] [.execute 0] (regs [(1, 4#32), (2, 5#32)])
    s.Sound ∧ step s = .next (next s) := ⟨sound_of_empty_slots (by decide), step_eq_next (by decide)⟩
/-- The ends of the immediate's range, and a bit of its field. -/
theorem witness_ImmediateFieldKeepsSignedValue : (-32768 : Int) ≤ -32768 ∧ (-32768 : Int) ≤ 32767 ∧ (BitVec.ofInt 16 (-32768)).toInt = -32768 ∧
    (BitVec.ofInt 16 32767).toInt = 32767 ∧ 15 < 16 := by decide
/-- R57, by hand: SEB with `rs = 1` and SLL with `rs = 1` break a fixed field of their row; SEB's opcode with `sa = 0x11` and SRL's with
`rs = 2` select no row. -/
theorem test_fields_that_select_a_row :
    decode Params.defaults 0x7C211420#32 = .reserved 0x7C211420#32 ∧ decode shifts 0x00211100#32 = .reserved 0x00211100#32 ∧
    decode Params.defaults 0x7C011460#32 = .unsupported 0x7C011460#32 ∧ decode shifts 0x00411102#32 = .unsupported 0x00411102#32 := by decide
theorem witness_AtMostOneRowMatchesAnyWord : opcodeRows[0] ∈ opcodeRows ∧ 0x00221820#32 &&& opcodeRows[0].mask = opcodeRows[0].pattern := by decide
/-- Each side of the three answers of the decoder. -/
theorem witness_DecoderClassifiesEveryWord :
    (opcodeRows[5] ∈ opcodeRows ∧ 0x70231020#32 &&& opcodeRows[5].mask = opcodeRows[5].pattern ∧ rtField 0x70231020#32 ≠ rdField 0x70231020#32) ∧
    ((∀ r ∈ opcodeRows, Params.defaults.admits r.kind = true → 0x00221860#32 &&& r.mask ≠ r.pattern) ∧
      0x00221860#32 &&& opcodeRows[0].select = opcodeRows[0].pattern &&& opcodeRows[0].select) := by decide
theorem witness_DecodeOfEncodeIsIdentity : (Instr.rotr 1 2 31).wellFormed shifts = true ∧ decode shifts (encode (.rotr 1 2 31)) = .instr (.rotr 1 2 31) := by
  decide
theorem witness_EncodeOfDecodeIsTheWord : decode Params.defaults 0x73FFF820#32 = .instr (.clz 31 31) ∧ encode (.clz 31 31) = 0x73FFF820#32 := by decide
/-- Each clause of construct: refused, an index, an immediate and a shift amount just out of range, and the ends of the ranges. -/
theorem witness_ConstructChecksThenAppends :
    let s := fun c => driven [] [c] { State.reset with params := { subs with extShift := true } }
    (s (.construct (.foreign .popcount) {})).status = .running ∧
    (next (s (.construct (.foreign .popcount) {}))).status = .refused (.unsupportedKind (.foreign .popcount)) ∧
    registerValues { rs := 1, rt := -1, rd := 40 } .add = [1] ++ -1 :: [40] ∧
    (next (s (.construct (.known .add) { rs := 1, rt := -1, rd := 40 }))).status = .faulted (.contractIndex (-1)) ∧
    (next (s (.construct (.known .addi) { rs := 0, imm := -32769, rt := 31 }))).status = .faulted (.contractImmediate (-32769)) ∧
    (next (s (.construct (.known .rotr) { rt := 0, rd := 31, sa := 32 }))).status = .faulted (.contractShiftAmount 32) ∧
    (next (s (.construct (.known .rotr) { rt := 0, rd := 31, sa := 31 }))).insts.map Operation.instr = [.rotr 0 31 31] ∧
    (next (s (.construct (.known .addi) { rs := 0, imm := -32768, rt := 31 }))).insts.map Operation.instr = [.addi 0 0x8000#16 31] := by decide
/-- Each clause of execute: an unknown handle, a rule that faults, a rule that completes beside another instance. -/
theorem witness_StepRunsTheInstanceOfTheHandle :
    let s := driven [.div 1 2] [.execute 1] State.reset
    let d := driven [.div 1 2] [.execute 0] State.reset
    (s.status = .running ∧ s.commands = .execute 1 :: [] ∧ s.insts[1]? = none ∧ (next s).status = .faulted (.contractHandle 1)) ∧
    (isNext (exec (.div 1 2) { d with commands := [], out := Output.quiet }) = false ∧ (next d).status = .faulted (.divideByZero 1 2)) ∧
    (twoAdds.status = .running ∧ twoAdds.insts.map Operation.live = [true, false] ∧ (next twoAdds).insts.map Operation.live = [false, true]) := by
  decide
theorem witness_DecodeThenExecuteRunsTheWord :
    let s := driven [] [.decode 0x00A71821#32, .execute 0] (regs [(5, 10#32), (7, 10#32)])
    s.status = .running ∧ s.commands = .decode 0x00A71821#32 :: .execute s.insts.length :: [] ∧
      decode s.params 0x00A71821#32 = .instr (.addu 5 7 3) ∧ (next (next s)).readReg 3 = 20#32 := by decide
/-- Its fault clause: a division by a register that holds 0, beside an instance constructed before. -/
theorem witness_DecodeThenExecuteRunsTheWord_faults :
    let s := driven [.addu 1 2 3] [.decode 0x0022001A#32, .execute 1] (regs [(1, 7#32)])
    s.status = .running ∧ s.commands = .decode 0x0022001A#32 :: .execute s.insts.length :: [] ∧
      decode s.params 0x0022001A#32 = .instr (.div 1 2) ∧ isNext (exec (.div 1 2) s) = false ∧
      (next (next s)).status = .faulted (.divideByZero 1 2) := by decide
theorem witness_WordMadeNextIsRunNext :
    let s := regs [(1, 0x80000000#32), (2, 1#32)]
    s.status = .running ∧ decode (s.params.admitting 0x00221823#32) 0x00221823#32 = .instr (.subu 1 2 3) ∧
      (next (s.withFetchWord 32 0x00221823)).readReg 3 = 0x7FFFFFFF#32 := by decide
/-- Its fault clause. -/
theorem witness_WordMadeNextIsRunNext_faults :
    decode (State.reset.params.admitting 0x0022001B#32) 0x0022001B#32 = .instr (.divu 1 2) ∧ isNext (exec (.divu 1 2) State.reset) = false ∧
      (next (State.reset.withFetchWord 32 0x0022001B)).status = .faulted (.divideByZero 1 2) := by decide
/-- Each clause of reverse: an unknown handle, an instance not live, a filled register slot, a filled pair slot. -/
theorem witness_ReverseRestoresTheSlot :
    let r := next twoAdds
    let p := next (driven [.mult 1 2] [.execute 0, .reverse 0] (pair 0xAAAAAAAA#32 0x55555555#32 (regs [(1, 2#32), (2, 3#32)])))
    (next (driven [] [.reverse 0] State.reset)).status = .faulted (.contractHandle 0) ∧
    (next (driven [.addu 1 2 3] [.reverse 0] State.reset)).status = .faulted (.contractReverse 0) ∧
    (r.status = .running ∧ r.commands = .reverse 1 :: [.reverse 0] ∧ r.insts.map Operation.slot = [.reg 3 0#32, .reg 3 9#32] ∧
      r.insts.map Operation.live = [false, true] ∧ (next r).readReg 3 = 9#32) ∧
    (p.insts.map Operation.slot = [.pair 0xAAAAAAAA#32 0x55555555#32] ∧ (next p).HI = 0xAAAAAAAA#32 ∧ (next p).LO = 0x55555555#32) := by decide
theorem witness_ExecuteThenReverseRestoresRegisters :
    let s := driven [.add 1 2 4] [.execute 0, .reverse 0] (regs [(1, 0x7FFFFFFF#32), (2, 1#32), (4, 0x11111111#32)])
    s.commands = .execute 0 :: .reverse 0 :: [] ∧ step s = .next (next s) ∧ (next s).status = .running :=
  ⟨rfl, step_eq_next (by decide), by decide⟩
theorem witness_EncodeAccessorIsAStub :
    let s := driven [.addu 1 2 3] [.encode 0] State.reset
    s.status = .running ∧ s.commands = .encode 0 :: [] ∧ s.insts[0]? = some { instr := .addu 1 2 3, slot := .empty, live := false } := by decide
/-- Each clause of the register commands, at the ends of the index range. -/
theorem witness_RegisterCommandsReadAndWriteWords :
    let s := fun c => driven [.mult 1 2] [c] (pair 1#32 2#32 (regs [(31, 4#32)]))
    (next (s (.read 32))).status = .faulted (.contractIndex 32) ∧ (next (s (.write (-1) 0#32))).status = .faulted (.contractIndex (-1)) ∧
    (next (s (.read 31))).out.result = .word 4#32 ∧ (next (s (.write 0 9#32))).readReg 0 = 9#32 ∧
    (next (s .readHI)).out.result = .word 1#32 ∧ (next (s .readLO)).out.result = .word 2#32 ∧
    (next (s (.writeHI 7#32))).HI = 7#32 ∧ (next (s (.writeLO 7#32))).LO = 7#32 := by decide
theorem witness_ExecuteDependsOnRegistersAndParametersOnly :
    SameRegisters (regs [(1, 4#32)]) (driven [.mult 1 2] [.readHI] (regs [(1, 4#32)])) ∧
    (driven [.mult 1 2] [.readHI] (regs [(1, 4#32)])).params = (regs [(1, 4#32)]).params := ⟨⟨fun _ => rfl, rfl, rfl⟩, rfl⟩
/-- The last sums on each side of both ends of the signed range (ADD, ADDI, SUB). -/
theorem witness_signed_range_ends : signedOverflow (2 ^ 31 - 1) = false ∧ signedOverflow (2 ^ 31) = true ∧ signedOverflow (-2 ^ 31) = false ∧
    signedOverflow (-2 ^ 31 - 1) = true := by decide
/-- The slot clause of ADD, ADDI and SUB. -/
theorem witness_trapping_instances_known : let s := driven [.add 1 2 3, .addi 1 1#16 3, .sub 1 2 3] [] State.reset
    s.insts.map Operation.instr = [.add 1 2 3, .addi 1 1#16 3, .sub 1 2 3] := by decide
theorem witness_MulIgnoresRtByDefault : State.reset.params.mulSecond = .rd ∧ (2 : Reg) ≠ 1 ∧ (2 : Reg) ≠ 3 := by decide
theorem witness_AccumulatorFamilyWritesThroughTheMask :
    (Instr.mult 1 2 = .mult 1 2 ∧ (12 : Int) = ((regs [(1, 3#32), (2, 4#32)]).readReg 1).toInt * ((regs [(1, 3#32), (2, 4#32)]).readReg 2).toInt) ∧
    State.reset.params.loMask16 = true := by decide
/-- Each clause of DIV: a zero divisor, the overflow under both parameters, and the operands next to it that complete. -/
theorem witness_DivWritesTruncatedQuotientAndRemainder :
    let z := regs [(1, 5#32)]
    let v := regs [(1, 0x80000000#32), (2, 0xFFFFFFFF#32)]
    let n := regs [(1, 0x80000001#32), (2, 0xFFFFFFFF#32)]
    z.readReg 2 = 0#32 ∧ v.readReg 1 = 0x80000000#32 ∧ v.readReg 2 = 0xFFFFFFFF#32 ∧ v.params.divOvf = .fault ∧
    isNext (exec (.div 1 2) v) = false ∧ n.readReg 2 ≠ 0#32 ∧ ¬ (n.readReg 1 = 0x80000000#32 ∧ n.readReg 2 = 0xFFFFFFFF#32) ∧
    (after State.reset (exec (.div 1 2) n)).LO = 0x7FFFFFFF#32 := by decide
theorem witness_DivuWritesFloorQuotientAndRemainder : (regs [(1, 5#32)]).readReg 2 = 0#32 ∧ (regs [(2, 1#32)]).readReg 2 ≠ 0#32 := by decide
theorem witness_DivisionByZeroWritesNothing :
    let s := driven [.divu 1 2] [.execute 0] (regs [(1, 5#32)])
    s.status = .running ∧ s.commands = .execute 0 :: [] ∧ s.insts.map Operation.instr = [.divu 1 2] ∧ s.readReg 2 = 0#32 := by decide
theorem witness_TrappingExecuteCompletesWithoutWriting :
    let s := driven [.add 1 2 3] [.execute 0] (regs [(1, 0x7FFFFFFF#32), (2, 1#32)])
    s.status = .running ∧ s.commands = .execute 0 :: [] ∧ s.insts.map Operation.instr = [.add 1 2 3] ∧
      signedOverflow ((s.readReg 1).toInt + (s.readReg 2).toInt) = true := by decide
/-- The rows of the fault table not met above: a write out of range, an unknown handle of each command, DIV's overflow. -/
theorem witness_FaultTableWritesNothingButStatus :
    let v := driven [.div 1 2] [.execute 0] (regs [(1, 0x80000000#32), (2, 0xFFFFFFFF#32)])
    (next (driven [] [.write 32 0#32] State.reset)).status = .faulted (.contractIndex 32) ∧
    (next (driven [] [.encode 0] State.reset)).status = .faulted (.contractHandle 0) ∧
    (next (driven [] [.reverse 0] State.reset)).status = .faulted (.contractHandle 0) ∧
    (next (driven [] [.execute 0] State.reset)).status = .faulted (.contractHandle 0) ∧
    (v.params.divOvf = .fault ∧ (next v).status = .faulted (.divideOverflow 1 2)) := by decide
theorem witness_EveryStopWritesNothingButStatus : let s := driven [] [.execute 0] State.reset
    step s = .next (next s) ∧ (next s).status ≠ .running := ⟨step_eq_next (by decide), by decide⟩
theorem witness_RefusalsWriteNothingButStatus : let s := fun c => driven [] [c] State.reset
    State.reset.params.admits .sub = false ∧ (next (s (.construct (.known .sub) {}))).status = .refused (.unsupportedKind (.known .sub)) ∧
    (next (s (.construct (.foreign (.other "BREAK")) {}))).status = .refused (.unsupportedKind (.foreign (.other "BREAK"))) ∧
    (next (s (.decode 0x00001010#32))).status = .refused (.unsupportedWord 0x00001010#32) ∧
    (next (s (.decode 0x00221860#32))).status = .refused (.reservedWord 0x00221860#32) := by decide
theorem witness_DefaultBlockRefusesWhatTheSourceLacks : State.reset.params.extSub = false ∧ State.reset.params.extShift = false ∧
    0x0022182A#32 &&& 0xFC00003F#32 = 0x0000002A#32 ∧ 0x28220001#32 &&& 0xFC000000#32 = 0x28000000#32 ∧
    (∀ r ∈ sourceRows, 0x8C220000#32 &&& r.select ≠ r.pattern &&& r.select) := by decide
theorem witness_StoppedBlockKeepsItsReason : (State.reset.raise (.contractHandle 0)).status = .faulted (.contractHandle 0) ∧
    (State.reset.refuse (.unsupportedWord 0#32)).status = .refused (.unsupportedWord 0#32) := by decide
theorem witness_NothingChangesWithoutACommand : State.reset.status = .running ∧ State.reset.commands = [] := by decide
theorem witness_OverwrittenInstanceCannotBeReversed :
    twoAdds.commands = .execute 1 :: .reverse 1 :: .reverse 0 :: [] ∧ twoAdds.insts.map (fun o => destOf o.instr) = [.reg 3, .reg 3] ∧
      step twoAdds = .next (next twoAdds) ∧ (next twoAdds).status = .running ∧ (next (next (next twoAdds))).status = .faulted (.contractReverse 0) :=
  ⟨rfl, by decide, step_eq_next (by decide), by decide, by decide⟩

/-! ### Words of each row, with the parameters both ways, and operands at both sides of an overflow -/

theorem witness_SignedOverflowIsASignChange : signedOverflow ((0x7FFFFFFF#32).toInt + (0x00000000#32).toInt) = false ∧
    signedOverflow ((0x7FFFFFFF#32).toInt + (0x00000001#32).toInt) = true ∧ signedOverflow ((0x80000000#32).toInt + (0xFFFFFFFF#32).toInt) = true := by decide
theorem witness_AddWritesExactSumOrTraps : 0x00221820#32 &&& 0xFC0007FF#32 = 0x00000020#32 ∧
    (let s := regs [(1, 0x7FFFFFFF#32), (2, 1#32)]; (s.readReg 1).toInt + (s.readReg 0).toInt = 2 ^ 31 - 1 ∧ (s.readReg 1).toInt + (s.readReg 2).toInt = 2 ^ 31) ∧
    ((driven [.add 1 2 3] [] State.reset).insts.map Operation.instr = [.add 1 2 3]) := by decide
theorem witness_AddiWritesExactSumOrTraps : 0x20230001#32 &&& 0xFC000000#32 = 0x20000000#32 ∧
    (let s := regs [(1, 0x80007FFF#32), (2, 0x80008000#32)]; (s.readReg 2).toInt + (0x8000#16).toInt = -2 ^ 31 ∧ (s.readReg 1).toInt + (0x8000#16).toInt = -2 ^ 31 - 1) ∧
    ((driven [.addi 1 0x8000#16 3] [] State.reset).insts.map Operation.instr = [.addi 1 0x8000#16 3]) := by decide
theorem witness_SubWritesExactDifferenceOrTraps : 0x00221822#32 &&& 0xFC0007FF#32 = 0x00000022#32 ∧ Params.defaults.extSub = false ∧ subs.extSub = true ∧
    (let s := regs [(1, 0x80000000#32), (2, 1#32)]; (s.readReg 1).toInt - (s.readReg 0).toInt = -2 ^ 31 ∧ (s.readReg 1).toInt - (s.readReg 2).toInt = -2 ^ 31 - 1) ∧
    ((driven [.sub 1 2 3] [] State.reset).insts.map Operation.instr = [.sub 1 2 3]) := by decide
theorem witness_CloCountsLeadingOnes : 0x70221021#32 &&& 0xFC0007FF#32 = 0x70000021#32 ∧ rtField 0x70221021#32 = rdField 0x70221021#32 ∧
    0x70231021#32 &&& 0xFC0007FF#32 = 0x70000021#32 ∧ rtField 0x70231021#32 ≠ rdField 0x70231021#32 := by decide
theorem witness_ClzCountsLeadingZeros : 0x70221020#32 &&& 0xFC0007FF#32 = 0x70000020#32 ∧ rtField 0x70221020#32 = rdField 0x70221020#32 ∧
    0x70231020#32 &&& 0xFC0007FF#32 = 0x70000020#32 ∧ rtField 0x70231020#32 ≠ rdField 0x70231020#32 := by decide
theorem witness_AddiuWrapsAndNeverTraps : 0x2423FFFF#32 &&& 0xFC000000#32 = 0x24000000#32 := by decide
theorem witness_AdduWrapsAndNeverTraps : 0x00A71821#32 &&& 0xFC0007FF#32 = 0x00000021#32 := by decide
theorem witness_SebSignExtendsTheByte : 0x7C011420#32 &&& 0xFFE007FF#32 = 0x7C000420#32 := by decide
theorem witness_SehSignExtendsTheHalfword : 0x7C011620#32 &&& 0xFFE007FF#32 = 0x7C000620#32 := by decide
theorem witness_MultWritesSignedProduct : 0x00220018#32 &&& 0xFC00FFFF#32 = 0x00000018#32 := by decide
theorem witness_MultuWritesUnsignedProduct : 0x00220019#32 &&& 0xFC00FFFF#32 = 0x00000019#32 := by decide
theorem witness_MaddAddsSignedProduct : 0x70220000#32 &&& 0xFC00FFFF#32 = 0x70000000#32 := by decide
theorem witness_MadduAddsUnsignedProduct : 0x70220001#32 &&& 0xFC00FFFF#32 = 0x70000001#32 := by decide
theorem witness_MsubSubtractsSignedProduct : 0x70220004#32 &&& 0xFC00FFFF#32 = 0x70000004#32 := by decide
theorem witness_MsubuSubtractsUnsignedProduct : 0x70220005#32 &&& 0xFC00FFFF#32 = 0x70000005#32 := by decide
theorem witness_MulKeepsLowProductBits : 0x70221802#32 &&& 0xFC0007FF#32 = 0x70000002#32 ∧ Params.defaults.mulSecond = .rd ∧ Params.defaults.mulWidth = .low16 ∧
    ({ Params.defaults with mulSecond := .rt, mulWidth := .low32 } : Params).mulSecond = .rt := by decide
theorem witness_SubuWrapsAndNeverTraps : 0x00221823#32 &&& 0xFC0007FF#32 = 0x00000023#32 ∧ Params.defaults.extSub = false ∧ subs.extSub = true := by decide
theorem witness_SllMultipliesByPowerOfTwo : 0x00011100#32 &&& 0xFFE0003F#32 = 0x00000000#32 ∧ Params.defaults.extShift = false ∧ shifts.extShift = true := by decide
theorem witness_SrlMovesBitsDownOverZeros : 0x00011102#32 &&& 0xFFE0003F#32 = 0x00000002#32 ∧ Params.defaults.extShift = false ∧ shifts.extShift = true := by decide
theorem witness_SraMovesBitsDownOverTheSign : 0x00011103#32 &&& 0xFFE0003F#32 = 0x00000003#32 ∧ Params.defaults.extShift = false ∧ shifts.extShift = true := by decide
theorem witness_RotrRotatesBitsDown : 0x00211102#32 &&& 0xFFE0003F#32 = 0x00200002#32 ∧ Params.defaults.extShift = false ∧ shifts.extShift = true := by decide

end Sys2Proof.Tests
end

section
/-! PROOFS. The state family (10_state.md): the created block (R34), the register file's read after write (R21), and the `live` bit of every
operation after every command (R32). -/

namespace Sys2Proof.Machine

variable {s t : State} {c : Command} {rest : List Command} {h g : Nat} {o p : Operation} {r : Reg}

/-! ### The created block and the register file -/

theorem State.create_readReg (P : Params) (I : Init) (r : Reg) : (State.create P I).readReg r = I.x[r.val] := rfl

/-- The step over a write to a register writes it and clears the `live` bits of that destination set (R87, R32). -/
theorem step_write_ofReg {w : Word} (hr : s.status = .running) (hc : s.commands = .write r.val w :: rest) :
    step s = .next (((s.take rest).writeReg r w).clearLive (.reg r)) := by
  apply step_of_perform_next hr hc
  simp [State.perform, State.writeCommand, registerInRange_ofReg, regOfInt_ofReg]

/-- The step over a read of a register answers its word (R87). -/
theorem step_read_ofReg (hr : s.status = .running) (hc : s.commands = .read r.val :: rest) :
    step s = .next ((s.take rest).answer (s.readReg r)) := by
  apply step_of_perform_next hr hc
  simp [State.perform, State.readCommand, registerInRange_ofReg, regOfInt_ofReg]

/-! ### The operations after a command -/

/-- A step over a command that leaves the block running is that command, completed (R224, R225). -/
theorem perform_next_of_step_running (hc : s.commands = c :: rest) (hs : step s = .next t) (ht : t.status = .running) :
    (s.take rest).perform c = .next t := by
  obtain ⟨_, ⟨hnil, _⟩ | ⟨c', rest', hc', hx⟩⟩ := step_cases hs
  · rw [hnil] at hc; cases hc
  · rw [hc] at hc'
    cases hc'
    rcases hx with hp | ⟨f, _, rfl⟩ | ⟨r, _, rfl⟩
    · exact hp
    · cases ht
    · cases ht

theorem State.addOperation_getElem? (i : Instr) (hp : s.insts[g]? = some p) : (s.addOperation i).insts[g]? = some p := by
  rw [State.addOperation_insts, List.getElem?_append_left (lt_length_of_getElem? hp), hp]

/-- What a reverse leaves in its own operation (R84). -/
theorem reversed_getElem?_self (v : Slot) (w : Written) (ho : s.insts[h]? = some o) :
    (((s.restore v).clearLive w).setSlot h o .empty false).insts[h]? = some { o with slot := .empty, live := false } := by
  apply State.setSlot_getElem?_self
  simpa [(s.restore_surroundings v).insts] using lt_length_of_getElem? ho

/-- And in every other one, where the slot it restored holds its own destination set (R32). -/
theorem reversed_getElem?_of_ne (hv : o.slot ≠ .empty) (hf : o.slot.fits (destOf o.instr)) (hg : g ≠ h)
    (hp : s.insts[g]? = some p) :
    (((s.restore o.slot).clearLive o.slot.written).setSlot h o .empty false).insts[g]? =
      some { p with live := if destOf p.instr = destOf o.instr then false else p.live } := by
  rw [State.setSlot_getElem?_of_ne _ _ _ _ hg, Slot.written_of_fits hv hf]
  exact State.clearLive_getElem? _ _ ((s.restore_surroundings o.slot).insts ▸ hp)

/-- The destination set of the operation that an execute or a reverse names. -/
def State.targetDest (s : State) : Command → Option Dest
  | .execute h => s.insts[h]?.map fun p => destOf p.instr
  | .reverse h => s.insts[h]?.map fun p => destOf p.instr
  | _ => none

/-- What a command that completes leaves of the operation at any handle: its instruction, and the `live` bit that `liveAfter` gives; and a
reverse empties the slot of its own operation (R31, R32). -/
theorem perform_getElem? (hsound : s.Sound) (hp : s.perform c = .next t) (ho : s.insts[g]? = some o) :
    ∃ o', t.insts[g]? = some o' ∧ o'.instr = o.instr ∧ (c = .reverse g → o'.slot = .empty) ∧
      o'.live = liveAfter c t.out.trap (s.targetDest c) g (destOf o.instr) o.live := by
  rcases perform_next_cases hp with ⟨i, hc, -, rfl⟩ | ⟨h, p, u, rfl, hh, he, rfl⟩ | ⟨h, p, rfl, hh, -, hne, rfl⟩ |
    ⟨w, hc, rfl⟩ | ⟨i, w, rfl, -, rfl⟩ | ⟨hi, lo, hc, rfl⟩
  · have hget := State.addOperation_getElem? i ho
    obtain ⟨k, v, rfl⟩ | ⟨w, rfl⟩ := hc <;> exact ⟨o, hget, rfl, nofun, rfl⟩
  · have hinsts := (exec_surroundings he).insts
    by_cases hg : g = h
    · subst hg
      cases hh.symm.trans ho
      exact ⟨_, commitExecute_getElem?_self hinsts ho, rfl, nofun, by simp [liveAfter]⟩
    · exact ⟨_, commitExecute_getElem?_of_ne hinsts hg ho, rfl, nofun,
        by simp [liveAfter, State.targetDest, hh, hg, eq_comm (a := destOf p.instr)]⟩
  · by_cases hg : g = h
    · subst hg
      cases hh.symm.trans ho
      exact ⟨_, reversed_getElem?_self _ _ ho, rfl, fun _ => rfl, by simp [liveAfter]⟩
    · have hfits := (hsound p (List.mem_of_getElem? hh)).slot
      exact ⟨_, reversed_getElem?_of_ne hne hfits hg ho, rfl, fun e => absurd (Command.reverse.inj e).symm hg,
        by simp [liveAfter, State.targetDest, hh, hg, eq_comm (a := destOf p.instr)]⟩
  · obtain ⟨i, rfl⟩ | rfl | rfl := hc <;> exact ⟨o, ho, rfl, nofun, rfl⟩
  · exact ⟨_, State.clearLive_getElem? _ (.reg (regOfInt i)) ho, rfl, nofun, rfl⟩
  · have hget := State.clearLive_getElem? (s.writePair hi lo) .hiLo ho
    obtain ⟨rfl, -⟩ | ⟨rfl, -⟩ := hc <;> exact ⟨_, hget, rfl, nofun, rfl⟩

end Sys2Proof.Machine

open Sys2Proof Sys2Proof.Machine

/-- Settles O6: a step that leaves the block running completed its command, and `perform_getElem?` says what that leaves of each operation. -/
theorem liveBitsFollowEveryCommand : Obligations.LiveBitsFollowEveryCommand := by
  intro s t c rest hsound hc hs ht g o ho
  have hp := perform_next_of_step_running hc hs ht
  obtain ⟨o', hget, hinstr, hslot, hlive⟩ := perform_getElem? (s := s.take rest) hsound hp ho
  refine ⟨o', hget, hinstr, hslot, hlive.trans ?_⟩
  cases c <;> rfl

/-- Settles O1: each field of the created state is the driver's word or the value that R34's table gives. -/
theorem createdStateHoldsDriversWords : Obligations.CreatedStateHoldsDriversWords :=
  fun P I => ⟨State.create_readReg P I, State.create_HI P I, State.create_LO P I, State.create_ovfCount P I,
    State.create_insts P I, State.create_status P I, State.addOperation_insts⟩

/-- Settles O2: the state after the write holds the word, and the read that follows answers it. -/
theorem everyRegisterKeepsWhatIsWritten : Obligations.EveryRegisterKeepsWhatIsWritten := by
  intro s r w rest hr hc
  refine ⟨_, (run_succ 1 (step_write_ofReg hr hc)).trans (run_succ 0 (step_read_ofReg hr rfl)), ?_⟩
  obtain ⟨hothers, hhi, hlo, hcount, -, hrest⟩ := onlyRegChanged_writeReg (s.take (.read r.val :: rest)) r w
  have hself := State.readReg_writeReg_self (s.take (.read r.val :: rest)) r w
  exact ⟨congrArg Result.word hself, hself, hothers, hhi, hlo, hcount, hrest.status.trans hr⟩
end

section
/-! PROOFS. The encoding family (30_encoding.md): what the decoder answers on every word (R60). -/

namespace Sys2Proof

variable {P : Params} {w : Word} {r : OpcodeRow}

/-- The kinds of R57's `rt = rd` condition. -/
theorem Kind.requiresRtEqRd_iff (k : Kind) : k.requiresRtEqRd = true ↔ k = .clo ∨ k = .clz := by
  cases k <;> simp [Kind.requiresRtEqRd]

/-- A CLO or CLZ word in force whose `rt` and `rd` differ is reserved (R57). -/
theorem decode_of_fits_of_rt_ne_rd (hr : r ∈ opcodeRows) (ha : P.admits r.kind = true) (hw : r.fits w = true)
    (hq : r.kind.requiresRtEqRd = true) (hne : rtField w ≠ rdField w) : decode P w = .reserved w := by
  simp [decode, admittedRow_of_fits hr ha hw, hq, hne]

/-- A word with the opcode fields of a row in force, but no row in force that it fits, is reserved (R57). -/
theorem decode_of_selects_of_admittedRow_none (hnone : admittedRow P w = none) (hr : r ∈ opcodeRows)
    (ha : P.admits r.kind = true) (hs : r.selects w = true) : decode P w = .reserved w := by
  simp [decode, hnone, find_selects hr hs, ha]

/-- When the decoder answers an instruction (R60): `decode_eq_instr` and its converse `decode_of_fits`. -/
theorem decode_eq_instr_iff {i : Instr} : decode P w = .instr i ↔
    ∃ r ∈ opcodeRows, P.admits r.kind = true ∧ r.fits w = true ∧ (r.kind.requiresRtEqRd = true → rtField w = rdField w) ∧
      i = instrOfFields w r.kind := by
  constructor
  · exact decode_eq_instr
  · rintro ⟨r, hr, ha, hw, hrt, rfl⟩
    exact decode_of_fits hr ha hw hrt

/-- When the decoder answers Reserved (R57, R60). -/
theorem decode_eq_reserved_iff : decode P w = .reserved w ↔
    (∃ r ∈ opcodeRows, P.admits r.kind = true ∧ r.fits w = true ∧ r.kind.requiresRtEqRd = true ∧ rtField w ≠ rdField w) ∨
    (admittedRow P w = none ∧ ∃ r ∈ opcodeRows, P.admits r.kind = true ∧ r.selects w = true) := by
  constructor
  · intro h
    unfold decode at h
    split at h
    next r hrow =>
      obtain ⟨hr, ha, hw⟩ := admittedRow_eq_some hrow
      split at h
      next hc =>
        simp only [Bool.and_eq_true, bne_iff_ne] at hc
        exact .inl ⟨r, hr, ha, hw, hc⟩
      next => cases h
    next hnone =>
      split at h
      next r hfind =>
        split at h
        next ha =>
          have hs : r.selects w = true := List.find?_some (p := fun r : OpcodeRow => r.selects w) hfind
          exact .inr ⟨hnone, r, List.mem_of_find?_eq_some hfind, ha, hs⟩
        next => cases h
      next => cases h
  · rintro (⟨r, hr, ha, hw, hq, hne⟩ | ⟨hnone, r, hr, ha, hs⟩)
    · exact decode_of_fits_of_rt_ne_rd hr ha hw hq hne
    · exact decode_of_selects_of_admittedRow_none hnone hr ha hs

/-- A refusal names the word that was decoded, and there is no fourth answer (R60). -/
theorem decode_total (P : Params) (w : Word) :
    (∃ i, decode P w = .instr i) ∨ decode P w = .reserved w ∨ decode P w = .unsupported w := by
  unfold decode
  split
  next => split <;> simp
  next =>
    split
    next => split <;> simp
    next => simp

end Sys2Proof

open Sys2Proof

/-- Settles O11: each answer of the decoder is characterised by `decode_eq_instr_iff`, `decode_eq_reserved_iff` and `decode_total`; what is
left is the spelling of a row that fits or is selected, and of CLO's and CLZ's condition. -/
theorem decoderClassifiesEveryWord : Obligations.DecoderClassifiesEveryWord := by
  intro P w
  refine ⟨fun i => ?_, ?_, decode_total P w⟩
  · simp only [decode_eq_instr_iff, OpcodeRow.fits_iff, Kind.requiresRtEqRd_iff]
  · simp only [decode_eq_reserved_iff, admittedRow_eq_none_iff, ← Bool.not_eq_true, OpcodeRow.fits_iff,
      OpcodeRow.selects_iff, Kind.requiresRtEqRd_iff, ne_eq]
end

section
/-! PROOFS. The operation contract family (40_operation_contract.md): what each command answers (R81 to R87) and what an execute depends on
(R89). -/

namespace Sys2Proof.Machine

variable {s s' u : State} {h g : Nat} {o p : Operation} {v : OperandValues} {kind : Kind} {i : Instr}

/-! ### Ranges of driver values (R23, R81) -/

theorem registerInRange_iff {n : Int} : registerInRange n = true ↔ 0 ≤ n ∧ n ≤ 31 := by simp [registerInRange]

theorem immediateInRange_iff {n : Int} : immediateInRange n = true ↔ -32768 ≤ n ∧ n ≤ 32767 := by simp [immediateInRange]

theorem shiftAmountInRange_iff {n : Int} : shiftAmountInRange n = true ↔ 0 ≤ n ∧ n ≤ 31 := by simp [shiftAmountInRange]

/-- An in-range shift amount is kept; `shiftOfInt` is `regOfInt` by another name. -/
theorem shiftOfInt_val {n : Int} (hn : shiftAmountInRange n = true) : ((shiftOfInt n).val : Int) = n := regOfInt_val hn

/-- An in-range immediate survives its field (R53). -/
theorem toInt_wrap16_of_inRange {n : Int} (hn : immediateInRange n = true) : (wrap 16 n).toInt = n := by
  obtain ⟨hlo, hhi⟩ := immediateInRange_iff.1 hn
  rw [BitVec.toInt_ofInt]
  simp only [Int.bmod_def]
  omega

/-! ### Construct (R81) -/

theorem construct_of_not_admitted {k : KindName} (hk : ∀ kind, k = .known kind → s.params.admits kind = false) :
    s.construct k v = .refused (.unsupportedKind k) := by
  cases k with
  | foreign f => rfl
  | known kind => simp [State.construct, hk kind rfl]

theorem construct_of_violation {f : Fault} (ha : s.params.admits kind = true) (hv : constructViolation v kind = some f) :
    s.construct (.known kind) v = .fault f := by
  simp [State.construct, ha, hv]

theorem construct_of_no_violation (ha : s.params.admits kind = true) (hv : constructViolation v kind = none) :
    s.construct (.known kind) v = .next (s.addOperation (instrOfValues v kind)) := by
  simp [State.construct, ha, hv]

theorem lastOperandViolation_immediate (hk : kind = .addi ∨ kind = .addiu) (hn : ¬ (-32768 ≤ v.imm ∧ v.imm ≤ 32767)) :
    lastOperandViolation v kind = some (.contractImmediate v.imm) := by
  have hout := mt immediateInRange_iff.1 hn
  obtain rfl | rfl := hk <;> exact if_neg hout

theorem lastOperandViolation_shiftAmount (hk : kind = .sll ∨ kind = .srl ∨ kind = .sra ∨ kind = .rotr)
    (hn : ¬ (0 ≤ v.sa ∧ v.sa ≤ 31)) : lastOperandViolation v kind = some (.contractShiftAmount v.sa) := by
  have hout := mt shiftAmountInRange_iff.1 hn
  obtain rfl | rfl | rfl | rfl := hk <;> exact if_neg hout

theorem lastOperandViolation_eq_none (himm : (kind = .addi ∨ kind = .addiu) → -32768 ≤ v.imm ∧ v.imm ≤ 32767)
    (hsa : (kind = .sll ∨ kind = .srl ∨ kind = .sra ∨ kind = .rotr) → 0 ≤ v.sa ∧ v.sa ≤ 31) :
    lastOperandViolation v kind = none := by
  cases kind with
  | addi | addiu => exact if_pos (immediateInRange_iff.2 (himm (by simp)))
  | sll | srl | sra | rotr => exact if_pos (shiftAmountInRange_iff.2 (hsa (by simp)))
  | add | addu | sub | subu | mul | clo | clz | seb | seh => rfl
  | mult | multu | madd | maddu | msub | msubu | div | divu => rfl

/-- In-range values are the operands of the instruction that construct makes (R81). -/
theorem hasValues_instrOfValues (hv : v.wellFormed kind = true) : HasValues v (instrOfValues v kind) := by
  cases kind <;> simp only [OperandValues.wellFormed, Bool.and_eq_true] at hv
  case add | addu | sub | subu | mul =>
    obtain ⟨⟨hrs, hrt⟩, hrd⟩ := hv
    exact ⟨regOfInt_val hrs, regOfInt_val hrt, regOfInt_val hrd⟩
  case addi | addiu =>
    obtain ⟨⟨hrs, hrt⟩, himm⟩ := hv
    exact ⟨regOfInt_val hrs, toInt_wrap16_of_inRange himm, regOfInt_val hrt⟩
  case sll | srl | sra | rotr =>
    obtain ⟨⟨hrt, hrd⟩, hsa⟩ := hv
    exact ⟨regOfInt_val hrt, regOfInt_val hrd, shiftOfInt_val hsa⟩
  case clo | clz | seb | seh | mult | multu | madd | maddu | msub | msubu | div | divu =>
    exact ⟨regOfInt_val hv.1, regOfInt_val hv.2⟩

/-! ### Execute, reverse and encode (R82 to R86) -/

theorem execute_of_unknown (ho : s.insts[h]? = none) : s.execute h = .fault (.contractHandle h) := by
  simp [State.execute, ho]

theorem reverse_of_unknown (ho : s.insts[h]? = none) : s.reverse h = .fault (.contractHandle h) := by
  simp [State.reverse, ho]

theorem reverse_of_not_live (ho : s.insts[h]? = some o) (hl : o.live = false) : s.reverse h = .fault (.contractReverse h) := by
  simp [State.reverse, ho, hl]

theorem encodeAccessor_of_known (ho : s.insts[h]? = some o) : s.encodeAccessor h = .fault (.notImplementedEncode h) := by
  simp [State.encodeAccessor, ho]

/-- A rule that completes from a quiet output raises the trap output exactly with a counted signal (R220). -/
theorem exec_signal_cases (he : exec i s = .next u) (hq : s.out.trap = false) :
    (u.ovfCount = s.ovfCount + 1 ∧ u.out.trap = true) ∨ (u.ovfCount = s.ovfCount ∧ u.out.trap = false) := by
  rcases exec_cases i s with ⟨d, w, -, hx⟩ | ⟨hi, lo, -, hx⟩ | ⟨d, S, -, -, -, hx⟩ | ⟨_, _, -, -, hx⟩ | ⟨_, _, -, -, -, hx⟩ <;>
    cases hx.symm.trans he
  · exact .inr ⟨rfl, hq⟩
  · exact .inr ⟨rfl, hq⟩
  · exact .inl ⟨rfl, rfl⟩

theorem commitExecute_insts_length (hi : u.insts = s.insts) : (s.commitExecute u h o).insts.length = s.insts.length := by
  simp [State.commitExecute, hi]

/-! ### The register commands (R87) -/

theorem readCommand_of_not_inRange {n : Int} (hn : ¬ (0 ≤ n ∧ n ≤ 31)) : s.readCommand n = .fault (.contractIndex n) :=
  if_neg (mt registerInRange_iff.1 hn)

theorem writeCommand_of_not_inRange {n : Int} {w : Word} (hn : ¬ (0 ≤ n ∧ n ≤ 31)) :
    s.writeCommand n w = .fault (.contractIndex n) :=
  if_neg (mt registerInRange_iff.1 hn)

/-! ### What an execute depends on (R89) -/

/-- Outcomes of one rule in the blocks `s` and `s'`: the same fault, or next states with the same registers after the same number of trap
signals. No rule refuses. -/
inductive OutcomesAgree (s s' : State) : Outcome → Outcome → Prop where
  | next {t t' : State} (regs : SameRegisters t t') (signals : t'.ovfCount + s.ovfCount = t.ovfCount + s'.ovfCount) :
    OutcomesAgree s s' (.next t) (.next t')
  | fault (f : Fault) : OutcomesAgree s s' (.fault f) (.fault f)

theorem SameRegisters.writeReg (hs : SameRegisters s s') (d : Reg) (w : Word) : SameRegisters (s.writeReg d w) (s'.writeReg d w) where
  regs r := by
    by_cases hr : r = d
    · subst hr
      simp
    · rw [State.readReg_writeReg_of_ne _ _ hr, State.readReg_writeReg_of_ne _ _ hr, hs.regs]
  hi := hs.hi
  lo := hs.lo

theorem outcomesAgree_writeReg (hs : SameRegisters s s') (d : Reg) {w w' : Word} (hw : w' = w) :
    OutcomesAgree s s' (.next (s.writeReg d w)) (.next (s'.writeReg d w')) :=
  hw ▸ .next (hs.writeReg d w') (Nat.add_comm _ _)

theorem outcomesAgree_writePair (hs : SameRegisters s s') {hi hi' lo lo' : Word} (hhi : hi' = hi) (hlo : lo' = lo) :
    OutcomesAgree s s' (.next (s.writePair hi lo)) (.next (s'.writePair hi' lo')) :=
  .next ⟨hs.regs, hhi, hlo⟩ (Nat.add_comm _ _)

theorem outcomesAgree_writeOrTrap (hs : SameRegisters s s') (d : Reg) {S S' : Int} (hS : S' = S) :
    OutcomesAgree s s' (.next (s.writeOrTrap d S)) (.next (s'.writeOrTrap d S')) := by
  subst hS
  unfold State.writeOrTrap
  split
  · exact .next ⟨hs.regs, hs.hi, hs.lo⟩ (by simp only [State.signalOverflowTrap_ovfCount]; omega)
  · exact outcomesAgree_writeReg hs d rfl

theorem outcomesAgree_writeAcc (hs : SameRegisters s s') (hp : s'.params = s.params) {R R' : DWord} (hR : R' = R) :
    OutcomesAgree s s' (.next (s.writeAcc R)) (.next (s'.writeAcc R')) :=
  outcomesAgree_writePair hs (by rw [hR]) (by rw [hR, hp])

theorem outcomesAgree_place (hs : SameRegisters s s') (m : Place) (q r : Word) :
    OutcomesAgree s s' (.next (s.place m q r)) (.next (s'.place m q r)) := by
  cases m <;> exact outcomesAgree_writePair hs rfl rfl

/-- Every rule takes its operands and its choices from registers and parameters alone (R89). -/
theorem exec_outcomesAgree (i : Instr) (hs : SameRegisters s s') (hp : s'.params = s.params) :
    OutcomesAgree s s' (exec i s) (exec i s') := by
  have hacc : s'.acc = s.acc := by simp only [State.acc, hs.hi, hs.lo]
  cases i with
  | add _ _ d | addi _ _ d | sub _ _ d => exact outcomesAgree_writeOrTrap hs d (by simp only [hs.regs])
  | addiu _ _ d | addu _ _ d | clo _ d | clz _ d | seb _ d | seh _ d | subu _ _ d =>
    exact outcomesAgree_writeReg hs d (by simp only [hs.regs])
  | sll _ d _ | srl _ d _ | sra _ d _ | rotr _ d _ => exact outcomesAgree_writeReg hs d (by simp only [hs.regs])
  | mul _ _ d => exact outcomesAgree_writeReg hs d (by simp only [State.mulOperand, hs.regs, hp])
  | mult | multu => exact outcomesAgree_writeAcc hs hp (by simp only [hs.regs])
  | madd | maddu | msub | msubu => exact outcomesAgree_writeAcc hs hp (by simp only [hs.regs, hacc])
  | div rs rt =>
    simp only [exec, execDiv, hs.regs, hp]
    split
    · exact .fault _
    · split
      · cases s.params.divOvf with
        | fault => exact .fault _
        | wrap => exact outcomesAgree_place hs _ _ _
      · exact outcomesAgree_place hs _ _ _
  | divu rs rt =>
    simp only [exec, execDivu, hs.regs, hp]
    split
    · exact .fault _
    · exact outcomesAgree_place hs _ _ _

end Sys2Proof.Machine

open Sys2Proof Sys2Proof.Machine

/-- Settles O16: the clauses are the checks of `State.construct` in their order, each an equation for what construct answers. -/
theorem constructChecksThenAppends : Obligations.ConstructChecksThenAppends := by
  intro s k v rest hr hc
  refine ⟨fun hk => step_of_perform_refused hr hc (construct_of_not_admitted hk), ?_⟩
  rintro kind rfl ha
  have faults {f : Fault} (hv : constructViolation v kind = some f) : ∃ t, step s = .next t ∧ TurnedAway s rest (.faulted f) t :=
    step_of_perform_fault hr hc (construct_of_violation ha hv)
  refine ⟨fun pre n post hvals hpre hn => faults (constructViolation_of_index hvals hpre hn),
    fun hregs hk hn => faults ((constructViolation_of_registers hregs).trans (lastOperandViolation_immediate hk hn)),
    fun hregs hk hn => faults ((constructViolation_of_registers hregs).trans (lastOperandViolation_shiftAmount hk hn)),
    fun hregs himm hsa => ?_⟩
  have hnone : constructViolation v kind = none :=
    (constructViolation_of_registers hregs).trans (lastOperandViolation_eq_none himm hsa)
  exact ⟨instrOfValues v kind, instrOfValues_kind v kind,
    hasValues_instrOfValues ((constructViolation_eq_none_iff v kind).1 hnone),
    step_of_perform_next hr hc (construct_of_no_violation ha hnone)⟩

/-- Settles O20: a live operation's slot is restored by `State.restore`, and `reversed_getElem?_self` and `reversed_getElem?_of_ne` say
what is left of the operations. -/
theorem reverseRestoresTheSlot : Obligations.ReverseRestoresTheSlot := by
  intro s h rest hr hc
  refine ⟨fun ho => step_of_perform_fault hr hc (reverse_of_unknown ho), fun o ho =>
    ⟨fun hl => step_of_perform_fault hr hc (reverse_of_not_live ho hl), fun hl hne hfits => ?_⟩⟩
  obtain ⟨-, hstatus, hparams, hcommands⟩ := (s.take rest).restore_surroundings o.slot
  refine ⟨_, step_of_perform_next hr hc (reverse_of_live ho hl hne), hstatus.trans hr, State.restore_ovfCount _ _,
    State.restore_out _ _, hparams, hcommands, fun d w hslot => ?_, fun hi lo hslot => ?_, reversed_getElem?_self _ _ ho,
    fun g p hg hp => reversed_getElem?_of_ne hne hfits hg hp⟩
  · rw [hslot]
    exact ⟨State.readReg_writeReg_self _ d w, fun r hrd => State.readReg_writeReg_of_ne _ w hrd, rfl, rfl⟩
  · rw [hslot]
    exact ⟨rfl, rfl, fun _ => rfl⟩

/-- Settles O23: each command is one update of the taken state, and a write is followed by `State.clearLive`. -/
theorem registerCommandsReadAndWriteWords : Obligations.RegisterCommandsReadAndWriteWords := by
  intro s rest hr
  refine ⟨fun n hc => ⟨fun hn => step_of_perform_fault hr hc (readCommand_of_not_inRange hn), ?_⟩,
    fun n w hc => ⟨fun hn => step_of_perform_fault hr hc (writeCommand_of_not_inRange hn), ?_⟩,
    fun hc => step_of_perform_next hr hc rfl, fun hc => step_of_perform_next hr hc rfl, fun w hc => ?_, fun w hc => ?_⟩
  · rintro r rfl
    exact step_read_ofReg hr hc
  · rintro r rfl
    exact ⟨_, step_write_ofReg hr hc, hr, State.readReg_writeReg_self (s.take rest) r w,
      fun q hq => State.readReg_writeReg_of_ne (s.take rest) w hq, rfl, rfl, rfl, rfl, rfl,
      fun g p hp => State.clearLive_getElem? _ (.reg r) hp⟩
  · exact ⟨_, step_of_perform_next hr hc rfl, hr, rfl, rfl, fun _ => rfl, rfl, rfl, rfl,
      fun g p hp => State.clearLive_getElem? _ .hiLo hp⟩
  · exact ⟨_, step_of_perform_next hr hc rfl, hr, rfl, rfl, fun _ => rfl, rfl, rfl, rfl,
      fun g p hp => State.clearLive_getElem? _ .hiLo hp⟩

/-- Settles O24, from `exec_outcomesAgree`. -/
theorem executeDependsOnRegistersAndParametersOnly : Obligations.ExecuteDependsOnRegistersAndParametersOnly := by
  intro i s s' hs hp
  have hagree := exec_outcomesAgree i hs hp
  generalize exec i s = a, exec i s' = b at hagree ⊢
  constructor
  · rintro f rfl
    cases hagree
    rfl
  · rintro t rfl
    cases hagree with
    | next hregs hsignals => exact ⟨_, rfl, hregs, hsignals⟩

/-- Settles O17: the step is `State.commitExecute` around the rule, whose lemmas say what is left of each operation. -/
theorem stepRunsTheInstanceOfTheHandle : Obligations.StepRunsTheInstanceOfTheHandle := by
  intro s h rest hr hc
  refine ⟨fun ho => step_of_perform_fault hr hc (execute_of_unknown ho), fun o ho =>
    ⟨fun f he => step_of_perform_fault hr hc (execute_of_fault ho he), fun u he => ?_⟩⟩
  change exec o.instr (s.take rest) = .next u at he
  obtain ⟨hinsts, hstatus, hparams, hcommands⟩ := exec_surroundings he
  have hsignal := exec_signal_cases he rfl
  refine ⟨_, step_of_perform_next hr hc (execute_of_next ho he), ⟨fun _ => rfl, rfl, rfl⟩, rfl, rfl, hstatus.trans hr,
    hsignal, hparams, hcommands, commitExecute_insts_length hinsts, ?_,
    fun g p hg hp => commitExecute_getElem?_of_ne hinsts hg hp⟩
  rw [commitExecute_getElem?_self hinsts ho]
  cases destOf o.instr <;> rfl

/-- Settles O22: the accessor raises its fault for every known handle. -/
theorem encodeAccessorIsAStub : Obligations.EncodeAccessorIsAStub :=
  fun _ _ _ _ hr hc ho => step_of_perform_fault hr hc (encodeAccessor_of_known ho)
end

section
/-! PROOFS. The add family (41_add.md): ADD and ADDI through the shared `State.writeOrTrap` (R100 to R102), ADDIU and ADDU through a write of
the sum modulo 2^32 (R104, R106). -/

namespace Sys2Proof.Machine

variable {s u : State} {i : Instr} {d : Reg} {S : Int}

/-! ### The rules, in terms of the shared operations -/

theorem exec_add (rs rt rd : Reg) (s : State) :
    exec (.add rs rt rd) s = .next (s.writeOrTrap rd ((s.readReg rs).toInt + (s.readReg rt).toInt)) := rfl

theorem exec_addi (rs : Reg) (imm16 : BitVec 16) (rt : Reg) (s : State) :
    exec (.addi rs imm16 rt) s = .next (s.writeOrTrap rt ((s.readReg rs).toInt + imm16.toInt)) := rfl

theorem exec_addiu (rs : Reg) (imm16 : BitVec 16) (rt : Reg) (s : State) :
    exec (.addiu rs imm16 rt) s = .next (s.writeReg rt (wrap 32 (uint (s.readReg rs) + uint (imm16.signExtend 32)))) := rfl

theorem exec_addu (rs rt rd : Reg) (s : State) :
    exec (.addu rs rt rd) s = .next (s.writeReg rd (wrap 32 (uint (s.readReg rs) + uint (s.readReg rt)))) := rfl

/-! ### The trapping rules: exact result or trap signal -/

theorem State.writeOrTrap_of_fits (s : State) (d : Reg) (hfits : -2 ^ 31 ≤ S ∧ S ≤ 2 ^ 31 - 1) :
    s.writeOrTrap d S = s.writeReg d (wrap 32 S) := by
  simp [State.writeOrTrap, (signedOverflow_eq_false_iff S).2 hfits]

theorem State.writeOrTrap_of_overflow (s : State) (d : Reg) (hov : S < -2 ^ 31 ∨ S > 2 ^ 31 - 1) :
    s.writeOrTrap d S = s.signalOverflowTrap :=
  if_pos ((signedOverflow_iff S).2 hov)

/-- A rule that writes or traps leaves the exact result and nothing else, where the result fits (R100). -/
theorem exec_writes_exact (he : exec i s = .next (s.writeOrTrap d S)) (hlo : -2 ^ 31 ≤ S) (hhi : S ≤ 2 ^ 31 - 1) :
    ∃ t, exec i s = .next t ∧ (t.readReg d).toInt = S ∧ OnlyRegChanged d s t := by
  rw [State.writeOrTrap_of_fits s d ⟨hlo, hhi⟩] at he
  refine ⟨_, he, ?_, onlyRegChanged_writeReg s d _⟩
  rw [State.readReg_writeReg_self, toInt_wrap_of_fits ⟨hlo, hhi⟩]

/-- A rule that writes or traps only signals, where the result does not fit (R100). -/
theorem exec_only_signals (he : exec i s = .next (s.writeOrTrap d S)) (hov : S < -2 ^ 31 ∨ S > 2 ^ 31 - 1) :
    ∃ t, exec i s = .next t ∧ OnlyTrapSignalled s t := by
  rw [State.writeOrTrap_of_overflow s d hov] at he
  exact ⟨_, he, onlyTrapSignalled_signal s⟩

/-- The execute of an instance whose rule completes saves the old destination register, whether or not the rule wrote it (R83, R101). -/
theorem execute_saves_register {h : Nat} {o : Operation} (ho : s.insts[h]? = some o) (hi : o.instr = i) (hd : destOf i = .reg d)
    (he : exec i s = .next u) :
    ∃ t, s.execute h = .next t ∧ t.insts[h]? = some { o with slot := .reg d (s.readReg d), live := true } := by
  subst hi
  refine ⟨_, execute_of_next ho he, ?_⟩
  rw [commitExecute_getElem?_self (exec_surroundings he).insts ho, hd]
  rfl

/-! ### The wrapping rules -/

theorem toNat_wrap_add (a b : Word) : (wrap 32 (uint a + uint b)).toNat = (a.toNat + b.toNat) % 2 ^ 32 := by
  exact_mod_cast toNat_wrap 32 (uint a + uint b)

/-- A rule that writes the wrapped sum of two words completes with their sum modulo 2^32 and nothing else changed (R104, R106). -/
theorem exec_writes_wrapped_sum {a b : Word} (he : exec i s = .next (s.writeReg d (wrap 32 (uint a + uint b)))) :
    ∃ t, exec i s = .next t ∧ OnlyRegChanged d s t ∧ (t.readReg d).toNat = (a.toNat + b.toNat) % 2 ^ 32 := by
  refine ⟨_, he, onlyRegChanged_writeReg s d _, ?_⟩
  rw [State.readReg_writeReg_self, toNat_wrap_add]

end Sys2Proof.Machine

open Sys2Proof Sys2Proof.Machine

/-- Settles O26: ADD's rule is `State.writeOrTrap` of the exact sum, and its execute saves `rd` on either branch. -/
theorem addWritesExactSumOrTraps : Obligations.AddWritesExactSumOrTraps :=
  ⟨decodesAs_of_row (r := opcodeRows[0]) (by simp) (fun _ _ => rfl) rfl, fun rs rt rd s =>
    ⟨exec_writes_exact (exec_add rs rt rd s), exec_only_signals (exec_add rs rt rd s),
      fun _ _ ho hi => execute_saves_register ho hi rfl (exec_add rs rt rd s)⟩⟩

/-- Settles O27: ADDI's rule is `State.writeOrTrap` of the exact sum with the signed immediate, and its execute saves `rt` on either branch. -/
theorem addiWritesExactSumOrTraps : Obligations.AddiWritesExactSumOrTraps :=
  ⟨decodesAs_of_row (r := opcodeRows[1]) (by simp) (fun _ _ => rfl) rfl, fun rs imm16 rt s =>
    ⟨exec_writes_exact (exec_addi rs imm16 rt s), exec_only_signals (exec_addi rs imm16 rt s),
      fun _ _ ho hi => execute_saves_register ho hi rfl (exec_addi rs imm16 rt s)⟩⟩

/-- Settles O28: ADDIU writes the wrapped sum with the sign-extended immediate in every state. -/
theorem addiuWrapsAndNeverTraps : Obligations.AddiuWrapsAndNeverTraps :=
  ⟨decodesAs_of_row (r := opcodeRows[2]) (by simp) (fun _ _ => rfl) rfl, fun rs imm16 rt s =>
    exec_writes_wrapped_sum (exec_addiu rs imm16 rt s)⟩

/-- Settles O29: ADDU writes the wrapped sum in every state. -/
theorem adduWrapsAndNeverTraps : Obligations.AdduWrapsAndNeverTraps :=
  ⟨decodesAs_of_row (r := opcodeRows[3]) (by simp) (fun _ _ => rfl) rfl, fun rs rt rd s =>
    exec_writes_wrapped_sum (exec_addu rs rt rd s)⟩
end

section
/-! PROOFS. The bit-count and sign-extension family (42_bitcount_signext.md): CLO and CLZ write a leading run of bits (R120, R122), SEB and SEH
a sign-extended low field (R124, R126). -/

namespace Sys2Proof.Machine

variable {s : State} {i : Instr} {d : Reg} {v : Word}

/-! ### The rules, in terms of the shared operations -/

theorem exec_clo (rs rd : Reg) (s : State) :
    exec (.clo rs rd) s = .next (s.writeReg rd (BitVec.ofNat 32 (leadingRun true (s.readReg rs) 32))) := rfl

theorem exec_clz (rs rd : Reg) (s : State) :
    exec (.clz rs rd) s = .next (s.writeReg rd (BitVec.ofNat 32 (leadingRun false (s.readReg rs) 32))) := rfl

theorem exec_seb (rt rd : Reg) (s : State) :
    exec (.seb rt rd) s = .next (s.writeReg rd (sext32 ((s.readReg rt).extractLsb' 0 8))) := rfl

theorem exec_seh (rt rd : Reg) (s : State) :
    exec (.seh rt rd) s = .next (s.writeReg rd (sext32 ((s.readReg rt).extractLsb' 0 16))) := rfl

/-! ### The counting rules -/

/-- A row with the `rt = rd` condition, in force under every parameter choice: its words decode as their fields say where the condition
holds, and are reserved where it does not (R57, R60). -/
theorem decode_of_row_requiring_rt_eq_rd {r : OpcodeRow} (hr : r ∈ opcodeRows) (hon : ∀ P : Params, P.admits r.kind = true)
    (hq : r.kind.requiresRtEqRd = true) (P : Params) (w : Word) (hw : w &&& r.mask = r.pattern) :
    (rtField w = rdField w → decode P w = .instr (instrOfFields w r.kind)) ∧
    (rtField w ≠ rdField w → decode P w = .reserved w) := by
  have hfits := (OpcodeRow.fits_iff r w).2 hw
  exact ⟨fun heq => decode_of_fits hr (hon P) hfits fun _ => heq, decode_of_fits_of_rt_ne_rd hr (hon P) hfits hq⟩

theorem toNat_ofNat_leadingRun (b : Bool) (v : Word) : (BitVec.ofNat 32 (leadingRun b v 32)).toNat = leadingRun b v 32 := by
  obtain ⟨hle, -, -⟩ := leadingRun_spec b v 32
  rw [BitVec.toNat_ofNat, Nat.mod_eq_of_lt (by omega)]

/-- A rule that writes the run of leading bits equal to `b` completes in every state with that count, and nothing else changed (R120, R122). -/
theorem exec_writes_leadingRun {b : Bool} (he : exec i s = .next (s.writeReg d (BitVec.ofNat 32 (leadingRun b v 32)))) :
    ∃ t, exec i s = .next t ∧ OnlyRegChanged d s t ∧ (t.readReg d).toNat ≤ 32 ∧
      (∀ j, j < (t.readReg d).toNat → v.getLsbD (31 - j) = b) ∧
      ((t.readReg d).toNat < 32 → v.getLsbD (31 - (t.readReg d).toNat) = !b) := by
  refine ⟨_, he, onlyRegChanged_writeReg s d _, ?_⟩
  rw [State.readReg_writeReg_self, toNat_ofNat_leadingRun]
  obtain ⟨hle, hrun, hstop⟩ := leadingRun_spec b v 32
  exact ⟨hle, hrun, fun hlt => Bool.eq_not.2 (hstop hlt)⟩

/-! ### The sign-extending rules -/

/-- The low `n` bits are kept and bit `n - 1` is copied above them. -/
theorem getLsbD_sext32_low (v : Word) {n j : Nat} (hn : 0 < n) (hj : j < 32) :
    (sext32 (v.extractLsb' 0 n)).getLsbD j = v.getLsbD (if j < n then j else n - 1) := by
  rw [BitVec.getLsbD_signExtend, BitVec.msb_eq_getLsbD_last]
  by_cases hlow : j < n
  · simp [hj, hlow]
  · simp [hj, hlow, hn]

/-- A rule that writes the sign-extended low `n` bits of a word completes in every state with nothing else changed (R124, R126). -/
theorem exec_writes_sext32_low {n : Nat} (hn : 0 < n) (he : exec i s = .next (s.writeReg d (sext32 (v.extractLsb' 0 n)))) :
    ∃ t, exec i s = .next t ∧ OnlyRegChanged d s t ∧
      ∀ j, j < 32 → (t.readReg d).getLsbD j = v.getLsbD (if j < n then j else n - 1) := by
  refine ⟨_, he, onlyRegChanged_writeReg s d _, fun j hj => ?_⟩
  rw [State.readReg_writeReg_self, getLsbD_sext32_low v hn hj]

end Sys2Proof.Machine

open Sys2Proof Sys2Proof.Machine

/-- Settles O30: CLO writes the run of one bits from bit 31 down, in every state. -/
theorem cloCountsLeadingOnes : Obligations.CloCountsLeadingOnes :=
  ⟨decode_of_row_requiring_rt_eq_rd (r := opcodeRows[4]) (by simp) (fun _ => rfl) rfl, fun rs rd s =>
    exec_writes_leadingRun (exec_clo rs rd s)⟩

/-- Settles O31: CLZ writes the run of zero bits from bit 31 down, in every state. -/
theorem clzCountsLeadingZeros : Obligations.ClzCountsLeadingZeros :=
  ⟨decode_of_row_requiring_rt_eq_rd (r := opcodeRows[5]) (by simp) (fun _ => rfl) rfl, fun rs rd s =>
    exec_writes_leadingRun (exec_clz rs rd s)⟩

/-- Settles O32: SEB writes the sign-extended low byte, in every state. -/
theorem sebSignExtendsTheByte : Obligations.SebSignExtendsTheByte :=
  ⟨decodesAs_of_row (r := opcodeRows[15]) (by simp) (fun _ _ => rfl) rfl, fun rt rd s =>
    exec_writes_sext32_low (by omega) (exec_seb rt rd s)⟩

/-- Settles O33: SEH writes the sign-extended low halfword, in every state. -/
theorem sehSignExtendsTheHalfword : Obligations.SehSignExtendsTheHalfword :=
  ⟨decodesAs_of_row (r := opcodeRows[16]) (by simp) (fun _ _ => rfl) rfl, fun rt rd s =>
    exec_writes_sext32_low (by omega) (exec_seh rt rd s)⟩
end

section
/-! PROOFS. The multiply family (43_multiply.md): MUL writes the kept low product bits to a register (R140); the six instructions of the HI:LO
family write a 64-bit pattern through `State.writeAcc` (R142 to R154). -/

namespace Sys2Proof.Machine

variable {s : State} {i : Instr} {n : Int} {R : DWord}

/-! ### The rules, in terms of the shared operations -/

theorem exec_mul (rs rt rd : Reg) (s : State) : exec (.mul rs rt rd) s =
    .next (s.writeReg rd (mulKept s.params.mulWidth (wrap 32 (uint (s.readReg rs) * uint (s.mulOperand rt rd))))) := rfl

theorem exec_mult (rs rt : Reg) (s : State) :
    exec (.mult rs rt) s = .next (s.writeAcc (wrap 64 ((s.readReg rs).toInt * (s.readReg rt).toInt))) := rfl

theorem exec_multu (rs rt : Reg) (s : State) :
    exec (.multu rs rt) s = .next (s.writeAcc (wrap 64 ((s.readReg rs).toNat * (s.readReg rt).toNat))) := rfl

theorem exec_madd (rs rt : Reg) (s : State) : exec (.madd rs rt) s =
    .next (s.writeAcc (wrap 64 ((s.HI ++ s.LO).toNat + (s.readReg rs).toInt * (s.readReg rt).toInt))) := rfl

theorem exec_maddu (rs rt : Reg) (s : State) : exec (.maddu rs rt) s =
    .next (s.writeAcc (wrap 64 ((s.HI ++ s.LO).toNat + (s.readReg rs).toNat * (s.readReg rt).toNat))) := rfl

theorem exec_msub (rs rt : Reg) (s : State) : exec (.msub rs rt) s =
    .next (s.writeAcc (wrap 64 ((s.HI ++ s.LO).toNat - (s.readReg rs).toInt * (s.readReg rt).toInt))) := rfl

theorem exec_msubu (rs rt : Reg) (s : State) : exec (.msubu rs rt) s =
    .next (s.writeAcc (wrap 64 ((s.HI ++ s.LO).toNat - (s.readReg rs).toNat * (s.readReg rt).toNat))) := rfl

/-! ### MUL's operand and kept bits -/

theorem State.mulOperand_of_rd (rt rd : Reg) (hp : s.params.mulSecond = .rd) : s.mulOperand rt rd = s.readReg rd := by
  simp only [State.mulOperand, hp]

theorem State.mulOperand_of_rt (rt rd : Reg) (hp : s.params.mulSecond = .rt) : s.mulOperand rt rd = s.readReg rt := by
  simp only [State.mulOperand, hp]

theorem toNat_wrap_mul (N : Nat) (a b : Word) : (wrap N (uint a * uint b)).toNat = a.toNat * b.toNat % 2 ^ N := by
  exact_mod_cast toNat_wrap N (uint a * uint b)

theorem mulKept_low32 (p : Word) : mulKept .low32 p = p := rfl

theorem toNat_mulKept_low16 (p : Word) : (mulKept .low16 p).toNat = p.toNat % 2 ^ 16 := by
  rw [mulKept, BitVec.toNat_setWidth_of_le (by decide), BitVec.extractLsb'_toNat, Nat.shiftRight_zero]

theorem toNat_mulKept_low16_wrap_mul (a b : Word) :
    (mulKept .low16 (wrap 32 (uint a * uint b))).toNat = a.toNat * b.toNat % 2 ^ 16 := by
  rw [toNat_mulKept_low16, toNat_wrap_mul, Nat.mod_mod_of_dvd _ (by decide)]

/-! ### The 64-bit pattern and its halves -/

/-- A 32 x 32 signed product lies in [-2^62, 2^62], so its pattern keeps it (R142). -/
theorem toInt_wrap_mul (a b : Word) : (wrap 64 (a.toInt * b.toInt)).toInt = a.toInt * b.toInt := by
  have hlo : -2 ^ 62 ≤ a.toInt * b.toInt := BitVec.le_toInt_mul_toInt
  have hhi : a.toInt * b.toInt ≤ 2 ^ 62 := BitVec.toInt_mul_toInt_le
  exact BitVec.toInt_ofInt_eq_self (by decide) (by omega) (by omega)

/-- A 32 x 32 unsigned product is below 2^64, so its pattern keeps it (R142). -/
theorem toNat_wrap64_mul (a b : Word) : (wrap 64 (uint a * uint b)).toNat = a.toNat * b.toNat := by
  rw [toNat_wrap_mul, Nat.mod_eq_of_lt BitVec.toNat_mul_toNat_lt]

theorem toNat_wrap_add_mul (N : Nat) (c : DWord) (a b : Word) :
    (wrap N (uint c + uint a * uint b)).toNat = (c.toNat + a.toNat * b.toNat) % 2 ^ N := by
  exact_mod_cast toNat_wrap N (uint c + uint a * uint b)

theorem toNat_extractLsb'_wrap (N lo len : Nat) (n : Int) :
    (((wrap N n).extractLsb' lo len).toNat : Int) = n % 2 ^ N / 2 ^ lo % 2 ^ len := by
  rw [BitVec.extractLsb'_toNat, Nat.shiftRight_eq_div_pow]
  push_cast
  rw [toNat_wrap]

theorem State.writeAcc_HI_toNat (s : State) (n : Int) : ((s.writeAcc (wrap 64 n)).HI.toNat : Int) = n % 2 ^ 64 / 2 ^ 32 := by
  rw [State.writeAcc_eq, State.writePair_HI, toNat_extractLsb'_wrap]
  omega

theorem State.writeAcc_LO_toNat_masked (hp : s.params.loMask16 = true) :
    ((s.writeAcc (wrap 64 n)).LO.toNat : Int) = n % 2 ^ 16 := by
  rw [State.writeAcc_eq, State.writePair_LO, if_pos hp, BitVec.toNat_setWidth_of_le (by decide), toNat_extractLsb'_wrap]
  omega

theorem State.writeAcc_LO_toNat_unmasked (hp : s.params.loMask16 = false) :
    ((s.writeAcc (wrap 64 n)).LO.toNat : Int) = n % 2 ^ 32 := by
  rw [State.writeAcc_eq, State.writePair_LO, if_neg (by simp [hp]), toNat_extractLsb'_wrap]
  omega

theorem onlyPairChanged_writeAcc (s : State) (R : DWord) : OnlyPairChanged s (s.writeAcc R) :=
  onlyPairChanged_writePair s _ _

/-- A rule that writes a 64-bit pattern with property `p` completes with that pattern in HI and LO and nothing else changed (R142). -/
theorem exec_writes_pattern {p : DWord → Prop} (he : exec i s = .next (s.writeAcc R)) (hR : p R) :
    ∃ t R, exec i s = .next t ∧ OnlyPairChanged s t ∧ HoldsAcc s.params R t ∧ p R :=
  ⟨_, R, he, onlyPairChanged_writeAcc s R, holdsAcc_writeAcc s R, hR⟩

/-- A rule that writes the pattern of `n` completes with the high half in HI, the low 16 or 32 bits in LO, and nothing else changed (R142). -/
theorem exec_writes_halves (he : exec i s = .next (s.writeAcc (wrap 64 n))) :
    ∃ t, exec i s = .next t ∧ OnlyPairChanged s t ∧ (t.HI.toNat : Int) = n % 2 ^ 64 / 2 ^ 32 ∧
      (s.params.loMask16 = true → (t.LO.toNat : Int) = n % 2 ^ 16 ∧ t.LO.toNat < 2 ^ 16) ∧
      (s.params.loMask16 = false → (t.LO.toNat : Int) = n % 2 ^ 32) := by
  refine ⟨_, he, onlyPairChanged_writeAcc s _, s.writeAcc_HI_toNat n, fun hp => ?_, State.writeAcc_LO_toNat_unmasked⟩
  have hlo := State.writeAcc_LO_toNat_masked (n := n) hp
  exact ⟨hlo, by omega⟩

end Sys2Proof.Machine

open Sys2Proof Sys2Proof.Machine

/-- Settles O34: MUL writes the kept bits of the product of `rs` and `State.mulOperand`, in every state. -/
theorem mulKeepsLowProductBits : Obligations.MulKeepsLowProductBits := by
  refine ⟨decodesAs_of_row (r := opcodeRows[12]) (by simp) (fun _ _ => rfl) rfl, fun rs rt rd s =>
    ⟨_, s.mulOperand rt rd, exec_mul rs rt rd s, onlyRegChanged_writeReg s rd _, State.mulOperand_of_rd rt rd,
      State.mulOperand_of_rt rt rd, fun hw => ?_, fun hw => ?_⟩⟩
  · rw [State.readReg_writeReg_self, hw, toNat_mulKept_low16_wrap_mul]
  · rw [State.readReg_writeReg_self, hw, mulKept_low32, toNat_wrap_mul]

/-- Settles O36: each of the six rules is `State.writeAcc` of the pattern of its exact result. -/
theorem accumulatorFamilyWritesThroughTheMask : Obligations.AccumulatorFamilyWritesThroughTheMask := by
  intro rs rt s i n hcase
  apply exec_writes_halves
  rcases hcase with ⟨rfl, rfl⟩ | ⟨rfl, rfl⟩ | ⟨rfl, rfl⟩ | ⟨rfl, rfl⟩ | ⟨rfl, rfl⟩ | ⟨rfl, rfl⟩
  · exact exec_mult rs rt s
  · exact exec_multu rs rt s
  · exact exec_madd rs rt s
  · exact exec_maddu rs rt s
  · exact exec_msub rs rt s
  · exact exec_msubu rs rt s

/-- Settles O37: MULT writes the pattern of the signed product, which fits in 64 bits. -/
theorem multWritesSignedProduct : Obligations.MultWritesSignedProduct :=
  ⟨decodesAs_of_row (r := opcodeRows[13]) (by simp) (fun _ _ => rfl) rfl, fun rs rt s =>
    exec_writes_pattern (exec_mult rs rt s) (toInt_wrap_mul _ _)⟩

/-- Settles O38: MULTU writes the pattern of the unsigned product, which fits in 64 bits. -/
theorem multuWritesUnsignedProduct : Obligations.MultuWritesUnsignedProduct :=
  ⟨decodesAs_of_row (r := opcodeRows[14]) (by simp) (fun _ _ => rfl) rfl, fun rs rt s =>
    exec_writes_pattern (exec_multu rs rt s) (toNat_wrap64_mul _ _)⟩

/-- Settles O39: MADD writes the pattern of HI:LO plus the signed product. -/
theorem maddAddsSignedProduct : Obligations.MaddAddsSignedProduct :=
  ⟨decodesAs_of_row (r := opcodeRows[8]) (by simp) (fun _ _ => rfl) rfl, fun rs rt s =>
    exec_writes_pattern (exec_madd rs rt s) (toNat_wrap 64 _)⟩

/-- Settles O40: MADDU writes the pattern of HI:LO plus the unsigned product. -/
theorem madduAddsUnsignedProduct : Obligations.MadduAddsUnsignedProduct :=
  ⟨decodesAs_of_row (r := opcodeRows[9]) (by simp) (fun _ _ => rfl) rfl, fun rs rt s =>
    exec_writes_pattern (exec_maddu rs rt s) (toNat_wrap_add_mul 64 _ _ _)⟩

/-- Settles O41: MSUB writes the pattern of HI:LO minus the signed product. -/
theorem msubSubtractsSignedProduct : Obligations.MsubSubtractsSignedProduct :=
  ⟨decodesAs_of_row (r := opcodeRows[10]) (by simp) (fun _ _ => rfl) rfl, fun rs rt s =>
    exec_writes_pattern (exec_msub rs rt s) (toNat_wrap 64 _)⟩

/-- Settles O42: MSUBU writes the pattern of HI:LO minus the unsigned product. -/
theorem msubuSubtractsUnsignedProduct : Obligations.MsubuSubtractsUnsignedProduct :=
  ⟨decodesAs_of_row (r := opcodeRows[11]) (by simp) (fun _ _ => rfl) rfl, fun rs rt s =>
    exec_writes_pattern (exec_msubu rs rt s) (toNat_wrap 64 _)⟩
end

section
/-! PROOFS. The divide family (44_divide.md): DIV writes the library's `BitVec.sdiv` and `BitVec.srem` through `State.place` (R172), DIVU its
`/` and `%` (R174); a zero divisor faults under both (R171). -/

namespace Sys2Proof.Machine

variable {s : State} {i : Instr} {rs rt : Reg} {a b : Word}

/-! ### The quotients and remainders, as the library's -/

theorem divOverflows_iff : divOverflows a b = true ↔ a = 0x80000000#32 ∧ b = 0xFFFFFFFF#32 := by
  simp [divOverflows]

theorem wrap_divT (a b : Word) : wrap 32 (divT a.toInt b.toInt) = a.sdiv b := by
  apply BitVec.eq_of_toInt_eq
  rw [BitVec.toInt_ofInt, BitVec.toInt_sdiv]

theorem wrap_remT (a b : Word) : wrap 32 (remT a.toInt b.toInt) = a.srem b := by
  rw [remT, ← Int.tmod_def, ← BitVec.toInt_srem, wrap, BitVec.ofInt_toInt]

theorem wrap_uint (v : Word) : wrap 32 (uint v) = v := by
  rw [wrap, uint, BitVec.ofInt_natCast, BitVec.ofNat_toNat, BitVec.setWidth_eq]

theorem divuQuotient_eq (a b : Word) : divuQuotient a b = a / b := by
  rw [divuQuotient, uint, uint, ← Int.natCast_ediv, ← BitVec.toNat_udiv, wrap_uint]

theorem wrap_divuRemainder (a b : Word) : wrap 32 (uint a - uint b * uint (a / b)) = a % b := by
  have hrem : uint a - uint b * uint (a / b) = uint (a % b) := by
    simp only [uint, BitVec.toNat_udiv, BitVec.toNat_umod, Int.natCast_ediv, Int.natCast_emod, Int.emod_def]
  rw [hrem, wrap_uint]

/-! ### The rules, one equation per case -/

theorem exec_div_of_zero (rs : Reg) (h0 : s.readReg rt = 0#32) : exec (.div rs rt) s = .fault (.divideByZero rs rt) := if_pos h0

theorem exec_divu_of_zero (rs : Reg) (h0 : s.readReg rt = 0#32) : exec (.divu rs rt) s = .fault (.divideByZero rs rt) := if_pos h0

theorem exec_div_of_overflow_fault (ha : s.readReg rs = 0x80000000#32) (hb : s.readReg rt = 0xFFFFFFFF#32)
    (hp : s.params.divOvf = .fault) : exec (.div rs rt) s = .fault (.divideOverflow rs rt) := by
  simp [exec, execDiv, ha, hb, divOverflows_iff, hp]

theorem exec_div_of_overflow_wrap (ha : s.readReg rs = 0x80000000#32) (hb : s.readReg rt = 0xFFFFFFFF#32)
    (hp : s.params.divOvf = .wrap) : exec (.div rs rt) s = .next (s.place s.params.divPlace 0x80000000#32 0x00000000#32) := by
  simp [exec, execDiv, ha, hb, divOverflows_iff, hp]

theorem exec_div_of_fits (h0 : s.readReg rt ≠ 0#32) (hov : ¬ (s.readReg rs = 0x80000000#32 ∧ s.readReg rt = 0xFFFFFFFF#32)) :
    exec (.div rs rt) s =
      .next (s.place s.params.divPlace ((s.readReg rs).sdiv (s.readReg rt)) ((s.readReg rs).srem (s.readReg rt))) := by
  simp only [exec, execDiv, if_neg h0, if_neg (mt divOverflows_iff.1 hov), wrap_divT, wrap_remT]

theorem exec_divu_of_ne_zero (h0 : s.readReg rt ≠ 0#32) :
    exec (.divu rs rt) s =
      .next (s.place s.params.divuPlace (s.readReg rs / s.readReg rt) (s.readReg rs % s.readReg rt)) := by
  simp only [exec, execDivu, if_neg h0, divuQuotient_eq, wrap_divuRemainder]

/-- A rule that places a quotient and a remainder with property `p` completes with them in HI and LO and nothing else changed (R170). -/
theorem exec_places {m : Place} {q r : Word} {p : Word → Word → Prop} (he : exec i s = .next (s.place m q r)) (hp : p q r) :
    ∃ t q r, exec i s = .next t ∧ OnlyPairChanged s t ∧ Placed m q r t ∧ p q r :=
  ⟨_, q, r, he, onlyPairChanged_place s m q r, placed_place s m q r, hp⟩

/-! ### What makes them quotient and remainder -/

/-- A truncated remainder is 0 or has the dividend's sign. -/
theorem tmod_eq_zero_or_neg_iff (m n : Int) : m.tmod n = 0 ∨ (m.tmod n < 0 ↔ m < 0) := by
  have hsign := Int.sign_tmod m n
  split at hsign
  · exact .inl (Int.sign_eq_zero_iff_zero.1 hsign)
  · right
    rw [← Int.sign_eq_neg_one_iff_neg, hsign, Int.sign_eq_neg_one_iff_neg]

/-- Off the zero divisor and the overflow, the signed quotient and remainder are the exact truncated ones (R172). -/
theorem sdiv_srem_spec (h0 : b ≠ 0#32) (hov : ¬ (a = 0x80000000#32 ∧ b = 0xFFFFFFFF#32)) :
    a.toInt = b.toInt * (a.sdiv b).toInt + (a.srem b).toInt ∧ (a.srem b).toInt.natAbs < b.toInt.natAbs ∧
      ((a.srem b).toInt = 0 ∨ ((a.srem b).toInt < 0 ↔ a.toInt < 0)) := by
  have hb : b.toInt ≠ 0 := fun hz => h0 (BitVec.eq_of_toInt_eq hz)
  rw [BitVec.toInt_sdiv_of_ne_or_ne a b (not_and_or.1 hov), BitVec.toInt_srem]
  refine ⟨(Int.mul_tdiv_add_tmod _ _).symm, ?_, tmod_eq_zero_or_neg_iff _ _⟩
  rw [Int.natAbs_tmod]
  exact Nat.mod_lt _ (Int.natAbs_pos.2 hb)

/-- Off the zero divisor, the unsigned quotient and remainder are Euclid's (R174). -/
theorem udiv_umod_spec (h0 : b ≠ 0#32) : a.toNat = b.toNat * (a / b).toNat + (a % b).toNat ∧ (a % b).toNat < b.toNat := by
  rw [BitVec.toNat_udiv, BitVec.toNat_umod]
  exact ⟨(Nat.div_add_mod _ _).symm, Nat.mod_lt _ (BitVec.toNat_pos_of_ne_zero h0)⟩

end Sys2Proof.Machine

open Sys2Proof Sys2Proof.Machine

/-- Settles O43: one equation of DIV's rule per clause, and `sdiv_srem_spec` for what the completing one places. -/
theorem divWritesTruncatedQuotientAndRemainder : Obligations.DivWritesTruncatedQuotientAndRemainder := by
  refine ⟨decodesAs_of_row (r := opcodeRows[6]) (by simp) (fun _ _ => rfl) rfl, fun rs rt s =>
    ⟨exec_div_of_zero rs, fun ha hb => ⟨exec_div_of_overflow_fault ha hb, fun hp => ?_⟩, fun h0 hov =>
      exec_places (exec_div_of_fits h0 hov) (sdiv_srem_spec h0 hov)⟩⟩
  exact ⟨_, exec_div_of_overflow_wrap ha hb hp, onlyPairChanged_place s _ _ _, placed_place s _ _ _⟩

/-- Settles O44: one equation of DIVU's rule per clause, and `udiv_umod_spec` for what the completing one places. -/
theorem divuWritesFloorQuotientAndRemainder : Obligations.DivuWritesFloorQuotientAndRemainder :=
  ⟨decodesAs_of_row (r := opcodeRows[7]) (by simp) (fun _ _ => rfl) rfl, fun rs _ _ =>
    ⟨exec_divu_of_zero rs, fun h0 => exec_places (exec_divu_of_ne_zero h0) (udiv_umod_spec h0)⟩⟩

/-- Settles O45: the rule faults on the registers of the taken state, and a command that faults writes nothing but the status. -/
theorem divisionByZeroWritesNothing : Obligations.DivisionByZeroWritesNothing := by
  intro s h o rs rt rest hr hc ho hi h0
  have hfault : exec o.instr (s.take rest) = .fault (.divideByZero rs rt) := by
    rcases hi with hi | hi <;> rw [hi]
    · exact exec_div_of_zero rs h0
    · exact exec_divu_of_zero rs h0
  exact step_of_perform_fault hr hc (execute_of_fault ho hfault)
end

section
/-! PROOFS. The extensions family (45_extensions.md): SUB through the shared `State.writeOrTrap` (R192), SUBU and the shifts through a write of
their word (R194 to R206), and what the decoder refuses while both extensions are off (R190). -/

namespace Sys2Proof

variable {P : Params} {w m : Word} {ps : List Word} {r : OpcodeRow} {k : Kind}

/-! ### With both extensions off -/

theorem Params.admits_extension_kind (hsub : P.extSub = false) (hshift : P.extShift = false)
    (hk : k ∈ [.sub, .subu, .sll, .srl, .sra, .rotr]) : P.admits k = false := by
  simp only [List.mem_cons, List.not_mem_nil, or_false] at hk
  obtain rfl | rfl | rfl | rfl | rfl | rfl := hk
  · exact hsub
  · exact hsub
  all_goals exact hshift

theorem extensionRows_kind : ∀ r ∈ extensionRows, r.kind ∈ [.sub, .subu, .sll, .srl, .sra, .rotr] := by decide

/-- The rows in force are then those of the source (R55). -/
theorem mem_sourceRows_of_admits (hsub : P.extSub = false) (hshift : P.extShift = false) (hr : r ∈ opcodeRows)
    (ha : P.admits r.kind = true) : r ∈ sourceRows := by
  obtain hsource | hext := List.mem_append.1 hr
  · exact hsource
  · rw [Params.admits_extension_kind hsub hshift (extensionRows_kind r hext)] at ha
    cases ha

/-! ### Words that select no row in force -/

/-- An instruction and Reserved each take a row in force that the word selects; without one the word is unsupported (R58). -/
theorem decode_of_selects_no_row (hno : ∀ r ∈ opcodeRows, P.admits r.kind = true → ¬ r.selects w = true) :
    decode P w = .unsupported w := by
  obtain ⟨i, hi⟩ | hres | hun := decode_total P w
  · obtain ⟨r, hr, ha, hfits, -⟩ := decode_eq_instr hi
    exact absurd (selects_of_fits hr hfits) (hno r hr ha)
  · obtain ⟨r, hr, ha, hfits, -⟩ | ⟨-, r, hr, ha, hs⟩ := decode_eq_reserved_iff.1 hres
    · exact absurd (selects_of_fits hr hfits) (hno r hr ha)
    · exact absurd hs (hno r hr ha)
  · exact hun

/-- A word with listed fields under `m` has the opcode fields of no source row, where none of the listed ones agrees with a source row in the
bits of `m` that the row selects by. -/
theorem selects_no_sourceRow (hw : w &&& m ∈ ps)
    (hps : ∀ r ∈ sourceRows, r.pattern &&& r.select &&& m ∉ ps.map (· &&& r.select)) :
    ∀ r ∈ sourceRows, w &&& r.select ≠ r.pattern &&& r.select := by
  intro r hr hs
  apply hps r hr
  rw [← hs, BitVec.and_assoc, BitVec.and_comm r.select, ← BitVec.and_assoc]
  exact List.mem_map_of_mem hw

/-- With both extensions off the decoder refuses every word that has the opcode fields of no source row (R190). -/
theorem decode_of_selects_no_sourceRow (hsub : P.extSub = false) (hshift : P.extShift = false)
    (hno : ∀ r ∈ sourceRows, w &&& r.select ≠ r.pattern &&& r.select) : decode P w = .unsupported w :=
  decode_of_selects_no_row fun r hr ha hs =>
    hno r (mem_sourceRows_of_admits hsub hshift hr ha) ((OpcodeRow.selects_iff r w).1 hs)

end Sys2Proof

namespace Sys2Proof.Machine

variable {s : State} {i : Instr} {d : Reg} {v : Word}

/-! ### The rules, in terms of the shared operations -/

theorem exec_sub (rs rt rd : Reg) (s : State) :
    exec (.sub rs rt rd) s = .next (s.writeOrTrap rd ((s.readReg rs).toInt - (s.readReg rt).toInt)) := rfl

theorem exec_subu (rs rt rd : Reg) (s : State) :
    exec (.subu rs rt rd) s = .next (s.writeReg rd (wrap 32 ((s.readReg rs).toNat - (s.readReg rt).toNat))) := rfl

theorem exec_sll (rt rd : Reg) (sa : ShiftAmount) (s : State) :
    exec (.sll rt rd sa) s = .next (s.writeReg rd (shiftLeft (s.readReg rt) sa)) := rfl

theorem exec_srl (rt rd : Reg) (sa : ShiftAmount) (s : State) :
    exec (.srl rt rd sa) s = .next (s.writeReg rd (shiftRightLogical (s.readReg rt) sa)) := rfl

theorem exec_sra (rt rd : Reg) (sa : ShiftAmount) (s : State) :
    exec (.sra rt rd sa) s = .next (s.writeReg rd (shiftRightArithmetic (s.readReg rt) sa)) := rfl

theorem exec_rotr (rt rd : Reg) (sa : ShiftAmount) (s : State) :
    exec (.rotr rt rd sa) s = .next (s.writeReg rd (rotateRightBy (s.readReg rt) sa)) := rfl

/-- The command over a word that the decoder finds unsupported is refused (R58). -/
theorem decodeWord_of_unsupported {w : Word} (hw : decode s.params w = .unsupported w) :
    s.decodeWord w = .refused (.unsupportedWord w) := by
  simp [State.decodeWord, hw]

/-! ### The shifted words -/

theorem toNat_shiftLeft (v : Word) (sa : ShiftAmount) : (shiftLeft v sa).toNat = v.toNat * 2 ^ sa.val % 2 ^ 32 := by
  exact_mod_cast toNat_wrap 32 (uint v * 2 ^ sa.val)

theorem getLsbD_shiftRightLogical_split (v : Word) (sa : ShiftAmount) (j : Nat) :
    (shiftRightLogical v sa).getLsbD j = if j + sa.val < 32 then v.getLsbD (j + sa.val) else false := by
  rw [getLsbD_shiftRightLogical]
  split
  next hin => simp [hin]
  next hpast => simp [hpast]

theorem getLsbD_shiftRightArithmetic_split (v : Word) (sa : ShiftAmount) {j : Nat} (hj : j < 32) :
    (shiftRightArithmetic v sa).getLsbD j = if j + sa.val < 32 then v.getLsbD (j + sa.val) else v.getLsbD 31 := by
  rw [getLsbD_shiftRightArithmetic v sa hj]
  split
  next hin => rw [min_eq_left (by omega)]
  next hpast => rw [min_eq_right (by omega)]

theorem getLsbD_rotateRightBy_split (v : Word) (sa : ShiftAmount) {j : Nat} (hj : j < 32) :
    (rotateRightBy v sa).getLsbD j = if j + sa.val < 32 then v.getLsbD (j + sa.val) else v.getLsbD (j + sa.val - 32) := by
  rw [getLsbD_rotateRightBy v sa hj]
  split
  next hin => rw [Nat.mod_eq_of_lt hin]
  next hpast => rw [Nat.mod_eq_sub_mod (by omega), Nat.mod_eq_of_lt (by omega)]

/-- A rule that writes a word with the bits `f` completes in every state with those bits and nothing else changed. -/
theorem exec_writes_bits {f : Nat → Bool} (he : exec i s = .next (s.writeReg d v)) (hv : ∀ j, j < 32 → v.getLsbD j = f j) :
    ∃ t, exec i s = .next t ∧ OnlyRegChanged d s t ∧ ∀ j, j < 32 → (t.readReg d).getLsbD j = f j := by
  refine ⟨_, he, onlyRegChanged_writeReg s d v, ?_⟩
  rwa [State.readReg_writeReg_self]

end Sys2Proof.Machine

open Sys2Proof Sys2Proof.Machine

/-- Settles O46: SUB's rule is `State.writeOrTrap` of the exact difference, and its execute saves `rd` on either branch. -/
theorem subWritesExactDifferenceOrTraps : Obligations.SubWritesExactDifferenceOrTraps :=
  ⟨decodesAs_of_row (r := opcodeRows[17]) (by simp) (fun _ hon => hon) rfl,
    refusedWhile_of_row (r := opcodeRows[17]) (by simp) (fun _ hoff => hoff), fun rs rt rd s =>
    ⟨exec_writes_exact (exec_sub rs rt rd s), exec_only_signals (exec_sub rs rt rd s),
      fun _ _ ho hi => execute_saves_register ho hi rfl (exec_sub rs rt rd s)⟩⟩

/-- Settles O47: SUBU writes the wrapped difference in every state. -/
theorem subuWrapsAndNeverTraps : Obligations.SubuWrapsAndNeverTraps := by
  refine ⟨decodesAs_of_row (r := opcodeRows[18]) (by simp) (fun _ hon => hon) rfl,
    refusedWhile_of_row (r := opcodeRows[18]) (by simp) (fun _ hoff => hoff), fun rs rt rd s =>
    ⟨_, exec_subu rs rt rd s, onlyRegChanged_writeReg s rd _, ?_⟩⟩
  rw [State.readReg_writeReg_self, toNat_wrap]

/-- Settles O48: SLL writes the product with the power of two, in every state. -/
theorem sllMultipliesByPowerOfTwo : Obligations.SllMultipliesByPowerOfTwo := by
  refine ⟨decodesAs_of_row (r := opcodeRows[19]) (by simp) (fun _ hon => hon) rfl,
    refusedWhile_of_row (r := opcodeRows[19]) (by simp) (fun _ hoff => hoff), fun rt rd sa s =>
    ⟨_, exec_sll rt rd sa s, onlyRegChanged_writeReg s rd _, ?_⟩⟩
  rw [State.readReg_writeReg_self, toNat_shiftLeft]

/-- Settles O49: SRL writes the bits of the logical shift, in every state. -/
theorem srlMovesBitsDownOverZeros : Obligations.SrlMovesBitsDownOverZeros :=
  ⟨decodesAs_of_row (r := opcodeRows[20]) (by simp) (fun _ hon => hon) rfl,
    refusedWhile_of_row (r := opcodeRows[20]) (by simp) (fun _ hoff => hoff), fun rt rd sa s =>
    exec_writes_bits (exec_srl rt rd sa s) fun j _ => getLsbD_shiftRightLogical_split _ sa j⟩

/-- Settles O50: SRA writes the bits of the arithmetic shift, in every state. -/
theorem sraMovesBitsDownOverTheSign : Obligations.SraMovesBitsDownOverTheSign :=
  ⟨decodesAs_of_row (r := opcodeRows[21]) (by simp) (fun _ hon => hon) rfl,
    refusedWhile_of_row (r := opcodeRows[21]) (by simp) (fun _ hoff => hoff), fun rt rd sa s =>
    exec_writes_bits (exec_sra rt rd sa s) fun _ hj => getLsbD_shiftRightArithmetic_split _ sa hj⟩

/-- Settles O51: ROTR writes the bits of the rotation, in every state. -/
theorem rotrRotatesBitsDown : Obligations.RotrRotatesBitsDown :=
  ⟨decodesAs_of_row (r := opcodeRows[22]) (by simp) (fun _ hon => hon) rfl,
    refusedWhile_of_row (r := opcodeRows[22]) (by simp) (fun _ hoff => hoff), fun rt rd sa s =>
    exec_writes_bits (exec_rotr rt rd sa s) fun _ hj => getLsbD_rotateRightBy_split _ sa hj⟩

/-- Settles O56: construct refuses a kind not in force, and each listed word has the opcode fields of no source row, so decode refuses it by
`decode_of_selects_no_sourceRow`. -/
theorem defaultBlockRefusesWhatTheSourceLacks : Obligations.DefaultBlockRefusesWhatTheSourceLacks := by
  intro s rest hr hsub hshift
  refine ⟨fun k v hc hk => step_of_perform_refused hr hc (construct_of_not_admitted ?_), fun w hc hw =>
    step_of_perform_refused hr hc (decodeWord_of_unsupported (decode_of_selects_no_sourceRow hsub hshift ?_))⟩
  · rintro kind rfl
    obtain ⟨f, hf⟩ | hext := hk
    · cases hf
    · exact Params.admits_extension_kind hsub hshift (by simpa using hext)
  · obtain hfields | hop | hno := hw
    · exact selects_no_sourceRow hfields (by decide)
    · exact selects_no_sourceRow hop (by decide)
    · exact hno
end

section
/-! PROOFS. The exceptions family (60_exceptions.md): which commands give the trap signal (R220), what the trapping execute leaves (R221),
the faults (R224), the refusals (R225), and the block that has stopped (R227). -/

namespace Sys2Proof.Machine

variable {s t u : State} {c : Command} {h g : Nat} {o : Operation} {i : Instr} {S : Int} {v : OperandValues} {kind : Kind}

/-! ### The trap signal (R220, R221) -/

/-- The rules with an exact result that can overflow are those that write it or trap (R100, R102, R192). -/
theorem exec_of_trappingResult (hS : trappingResult s i = some S) : ∃ d, exec i s = .next (s.writeOrTrap d S) := by
  cases i with
  | add rs rt d => cases hS; exact ⟨d, exec_add rs rt d s⟩
  | addi rs imm16 d => cases hS; exact ⟨d, exec_addi rs imm16 d s⟩
  | sub rs rt d => cases hS; exact ⟨d, exec_sub rs rt d s⟩
  | _ => cases hS

/-- Every other rule that completes leaves the trap record and the output (R220). -/
theorem exec_signals_nothing_of_no_trappingResult (hS : trappingResult s i = none) (he : exec i s = .next u) :
    u.ovfCount = s.ovfCount ∧ u.out = s.out := by
  rcases exec_cases i s with ⟨d, w, -, hx⟩ | ⟨hi, lo, -, hx⟩ | ⟨_, _, -, -, hkind, -⟩ | ⟨_, _, -, -, hx⟩ | ⟨_, _, -, -, -, hx⟩
  · cases hx.symm.trans he
    exact ⟨rfl, rfl⟩
  · cases hx.symm.trans he
    exact ⟨rfl, rfl⟩
  · cases i with
    | add | addi | sub => cases hS
    | _ => simp [Instr.kind] at hkind
  · cases hx.symm.trans he
  · cases hx.symm.trans he

/-- The execute of an overflowing ADD, ADDI or SUB completes, and its rule only signals (R220, R221). -/
theorem execute_of_overflow (ho : s.insts[h]? = some o) (hS : trappingResult s o.instr = some S)
    (hov : S < -2 ^ 31 ∨ S > 2 ^ 31 - 1) : s.execute h = .next (s.commitExecute s.signalOverflowTrap h o) := by
  obtain ⟨d, he⟩ := exec_of_trappingResult hS
  rw [State.writeOrTrap_of_overflow s d hov] at he
  exact execute_of_next ho he

/-- The rule of an execute that does not overflow gives no signal (R220). -/
theorem exec_signals_nothing (hno : ¬ Overflows s (.execute h)) (ho : s.insts[h]? = some o) (he : exec o.instr s = .next u) :
    u.ovfCount = s.ovfCount ∧ u.out = s.out := by
  cases hS : trappingResult s o.instr with
  | none => exact exec_signals_nothing_of_no_trappingResult hS he
  | some S =>
    obtain ⟨d, hx⟩ := exec_of_trappingResult hS
    rcases s.writeOrTrap_cases d S with ⟨hov, -⟩ | ⟨-, hw⟩
    · exact absurd ⟨h, o, S, rfl, ho, hS, (signedOverflow_iff S).1 hov⟩ hno
    · rw [hw] at hx
      cases hx.symm.trans he
      exact ⟨rfl, rfl⟩

/-- A command that completes without an overflow leaves the trap record and the trap output (R220). -/
theorem perform_signals_nothing (hno : ¬ Overflows s c) (hp : s.perform c = .next t) :
    t.ovfCount = s.ovfCount ∧ t.out.trap = s.out.trap := by
  rcases perform_next_cases hp with ⟨_, -, -, rfl⟩ | ⟨h, o, u, rfl, ho, he, rfl⟩ | ⟨h, o, -, -, -, -, rfl⟩ | ⟨_, -, rfl⟩ |
    ⟨_, _, -, -, rfl⟩ | ⟨_, _, -, rfl⟩
  · exact ⟨rfl, rfl⟩
  · obtain ⟨hcount, hout⟩ := exec_signals_nothing hno ho he
    exact ⟨hcount, congrArg Output.trap hout⟩
  · exact ⟨s.restore_ovfCount o.slot, congrArg Output.trap (s.restore_out o.slot)⟩
  · exact ⟨rfl, rfl⟩
  · exact ⟨rfl, rfl⟩
  · exact ⟨rfl, rfl⟩

/-- A trapping execute leaves every operation but its own (R221: nothing was written, so no `live` bit is cleared). -/
theorem commitExecute_getElem?_of_trap (ht : u.out.trap = true) (hi : u.insts = s.insts) (hg : g ≠ h) :
    (s.commitExecute u h o).insts[g]? = s.insts[g]? := by
  rw [State.commitExecute, State.setSlot_getElem?_of_ne _ _ _ _ hg, writtenBy, if_pos ht, State.clearLive_nothing, hi]

/-! ### Faults and refusals (R224, R225) -/

/-- Among values not all in range, construct finds an index to fault with (R226). -/
theorem constructViolation_of_exists_index (hout : ∃ n ∈ registerValues v kind, ¬ (0 ≤ n ∧ n ≤ 31)) :
    ∃ n ∈ registerValues v kind, ¬ (0 ≤ n ∧ n ≤ 31) ∧ constructViolation v kind = some (.contractIndex n) := by
  cases hfind : (registerValues v kind).find? fun n => !registerInRange n with
  | none =>
    obtain ⟨n, hmem, hn⟩ := hout
    have hin : registerInRange n = true := by simpa using List.find?_eq_none.1 hfind n hmem
    exact absurd (registerInRange_iff.1 hin) hn
  | some n =>
    have hbad : ¬ registerInRange n = true := by simpa using List.find?_some hfind
    exact ⟨n, List.mem_of_find?_eq_some hfind, mt registerInRange_iff.2 hbad, by simp only [constructViolation, hfind]⟩

theorem encodeAccessor_of_unknown (ho : s.insts[h]? = none) : s.encodeAccessor h = .fault (.contractHandle h) := by
  simp [State.encodeAccessor, ho]

/-- The command over a word that breaks a fixed field is refused (R57). -/
theorem decodeWord_of_reserved {w : Word} (hw : decode s.params w = .reserved w) : s.decodeWord w = .refused (.reservedWord w) := by
  simp [State.decodeWord, hw]

/-! ### A stopped machine (R227) -/

theorem core_run_succ_of_fault {M : Host.Core} (k : Nat) (s : M.State) {f : M.Fault} (hs : M.step s = .fault f) :
    M.run (k + 1) s = .fault f := by
  simp [Host.Core.run, hs]

theorem core_run_succ_of_refused {M : Host.Core} (k : Nat) (s : M.State) {r : M.Refusal} (hs : M.step s = .refused r) :
    M.run (k + 1) s = .refused r := by
  simp [Host.Core.run, hs]

end Sys2Proof.Machine

open Sys2Proof Sys2Proof.Machine

/-- Settles O4: an overflowing execute completes by `execute_of_overflow`; every other command signals nothing if it completes, and writes
only the status if it does not. -/
theorem onlyOverflowingAddsAndSubSignalTheTrap : Obligations.OnlyOverflowingAddsAndSubSignalTheTrap := by
  intro s t c rest hc hs
  obtain ⟨hr, -⟩ := step_cases hs
  constructor
  · rintro ⟨h, o, S, rfl, ho, hS, hov⟩
    have hx : (s.take rest).execute h = .next _ := execute_of_overflow ho hS hov
    cases (step_of_perform_next hr hc hx).symm.trans hs
    exact ⟨rfl, rfl⟩
  · intro hno
    rw [step_of_command hr hc] at hs
    cases hp : (s.take rest).perform c with
    | next u =>
      rw [hp] at hs
      cases hs
      exact perform_signals_nothing (s := s.take rest) hno hp
    | fault f => rw [hp] at hs; cases hs; exact ⟨rfl, rfl⟩
    | refused r => rw [hp] at hs; cases hs; exact ⟨rfl, rfl⟩

/-- Settles O52: the execute is `State.commitExecute` around the bare signal, which leaves the other operations by
`commitExecute_getElem?_of_trap`. -/
theorem trappingExecuteCompletesWithoutWriting : Obligations.TrappingExecuteCompletesWithoutWriting := by
  intro s h o rest d hr hc ho hinstr
  obtain ⟨S, hS, hov, hdest⟩ :
      ∃ S, trappingResult s o.instr = some S ∧ signedOverflow S = true ∧ destOf o.instr = .reg d := by
    rcases hinstr with ⟨rs, rt, hi, hov⟩ | ⟨rs, imm16, hi, hov⟩ | ⟨rs, rt, hi, hov⟩ <;>
      exact ⟨_, by rw [hi]; rfl, hov, by rw [hi]; rfl⟩
  have hx : (s.take rest).execute h = .next _ := execute_of_overflow ho hS ((signedOverflow_iff S).1 hov)
  refine ⟨_, step_of_perform_next hr hc hx, hr, ⟨fun _ => rfl, rfl, rfl⟩, rfl, rfl, ?_,
    fun g hg => commitExecute_getElem?_of_trap rfl rfl hg, rfl, rfl⟩
  have hself := commitExecute_getElem?_self (s := s.take rest) (u := (s.take rest).signalOverflowTrap) rfl ho
  rwa [hdest] at hself

/-- Settles O53: each row of the table is one equation for what its command answers, and a command that faults writes only the status. -/
theorem faultTableWritesNothingButStatus : Obligations.FaultTableWritesNothingButStatus := by
  intro s c rest hr hc
  have faults {f : Fault} (hp : (s.take rest).perform c = .fault f) : ∃ t, step s = .next t ∧ TurnedAway s rest (.faulted f) t :=
    step_of_perform_fault hr hc hp
  refine ⟨?index, ?constructIndex, ?immediate, ?shiftAmount, ?handle, ?notLive, ?encode, ?divideByZero, ?divideOverflow⟩
  case index =>
    rintro n (rfl | ⟨w, rfl⟩) hn
    · exact faults (readCommand_of_not_inRange hn)
    · exact faults (writeCommand_of_not_inRange hn)
  case constructIndex =>
    rintro kind v rfl ha hout
    obtain ⟨n, hmem, hn, hv⟩ := constructViolation_of_exists_index hout
    obtain ⟨t, ht⟩ := faults (construct_of_violation ha hv)
    exact ⟨t, n, hmem, hn, ht⟩
  case immediate =>
    rintro kind v rfl hk hregs hn
    have ha : s.params.admits kind = true := by rcases hk with rfl | rfl <;> rfl
    exact faults (construct_of_violation ha ((constructViolation_of_registers hregs).trans (lastOperandViolation_immediate hk hn)))
  case shiftAmount =>
    rintro kind v rfl hk hshift hregs hn
    have ha : s.params.admits kind = true := by rcases hk with rfl | rfl | rfl | rfl <;> exact hshift
    exact faults (construct_of_violation ha ((constructViolation_of_registers hregs).trans (lastOperandViolation_shiftAmount hk hn)))
  case handle =>
    rintro h (rfl | rfl | rfl) ho
    · exact faults (execute_of_unknown ho)
    · exact faults (reverse_of_unknown ho)
    · exact faults (encodeAccessor_of_unknown ho)
  case notLive =>
    rintro h o rfl ho hl
    exact faults (reverse_of_not_live ho hl)
  case encode =>
    rintro h o rfl ho
    exact faults (encodeAccessor_of_known ho)
  case divideByZero =>
    rintro h o rs rt rfl ho hi h0
    exact divisionByZeroWritesNothing s h o rs rt rest hr hc ho hi h0
  case divideOverflow =>
    rintro h o rs rt rfl ho hi ha hb hp
    have he : exec o.instr (s.take rest) = .fault (.divideOverflow rs rt) := by rw [hi]; exact exec_div_of_overflow_fault ha hb hp
    exact faults (execute_of_fault ho he)

/-- Settles O55: construct refuses what is not admitted and decode what the decoder refuses, each by one equation. -/
theorem refusalsWriteNothingButStatus : Obligations.RefusalsWriteNothingButStatus := by
  intro s c rest hr hc
  refine ⟨?_, ?_, ?_, ?_⟩
  · rintro f v rfl
    exact step_of_perform_refused hr hc rfl
  · rintro kind v rfl ha
    exact step_of_perform_refused hr hc (construct_of_not_admitted (s := s.take rest) (k := .known kind) (by rintro _ ⟨⟩; exact ha))
  · rintro w rfl hw
    exact step_of_perform_refused hr hc (decodeWord_of_unsupported hw)
  · rintro w rfl hw
    exact step_of_perform_refused hr hc (decodeWord_of_reserved hw)

/-- Settles O57: the first step of a stopped block already ends the run, with the stored reason. -/
theorem stoppedBlockKeepsItsReason : Obligations.StoppedBlockKeepsItsReason :=
  fun s n => ⟨fun _ hf => ⟨step_faulted hf, core_run_succ_of_fault (M := Sys2Proof.core) n s (step_faulted hf)⟩,
    fun _ hr => ⟨step_refused hr, core_run_succ_of_refused (M := Sys2Proof.core) n s (step_refused hr)⟩⟩
end

section
/-! PROOFS. What every step keeps: the soundness of the operations (10_state.md R31, R32), and their kinds, operands and the parameters. -/

namespace Sys2Proof.Machine

variable {s t u : State} {c : Command} {h : Nat} {o : Operation} {i : Instr} {P : Params}

/-! ### Soundness of the operations -/

theorem Operation.sound_fresh (hi : i.wellFormed P = true) : Operation.Sound P { instr := i, slot := .empty, live := false } :=
  ⟨hi, trivial, nofun⟩

theorem State.addOperation_sound (hs : s.Sound) (hi : i.wellFormed s.params = true) : (s.addOperation i).Sound :=
  List.forall_mem_append.2 ⟨hs, List.forall_mem_singleton.2 (Operation.sound_fresh hi)⟩

/-- The bookkeeping of an execute fills the slot of its operation with a value of its own destination set (R83). -/
theorem commitExecute_sound (hs : s.Sound) (ho : s.insts[h]? = some o) (hu : SameSurroundings s u) :
    (s.commitExecute u h o).Sound := by
  have hsu : ∀ p ∈ u.insts, p.Sound u.params := hu.insts ▸ hu.params ▸ hs
  have hkind : o.instr.wellFormed u.params = true := hu.params ▸ (hs o (List.mem_of_getElem? ho)).kind
  exact sound_set (sound_clearLive hsu _) h ⟨hkind, s.priorValue_fits _, fun _ => s.priorValue_ne_empty _⟩

/-- A reverse leaves its operation neither filled nor live (R84). -/
theorem reversed_sound (hs : s.Sound) (ho : s.insts[h]? = some o) (v : Slot) (w : Written) :
    (((s.restore v).clearLive w).setSlot h o .empty false).Sound := by
  have hv := s.restore_surroundings v
  have hsv : ∀ p ∈ (s.restore v).insts, p.Sound (s.restore v).params := hv.insts ▸ hv.params ▸ hs
  have hkind : o.instr.wellFormed (s.restore v).params = true := hv.params ▸ (hs o (List.mem_of_getElem? ho)).kind
  exact sound_set (sound_clearLive hsv w) h ⟨hkind, trivial, nofun⟩

theorem perform_sound (hs : s.Sound) (hp : s.perform c = .next t) : t.Sound := by
  rcases perform_next_cases hp with ⟨i, -, hi, rfl⟩ | ⟨h, o, u, -, ho, he, rfl⟩ | ⟨h, o, -, ho, -, -, rfl⟩ | ⟨w, -, rfl⟩ |
    ⟨i, w, -, -, rfl⟩ | ⟨hi, lo, -, rfl⟩
  · exact State.addOperation_sound hs hi
  · exact commitExecute_sound hs ho (exec_surroundings he)
  · exact reversed_sound hs ho _ _
  · exact hs
  · exact sound_clearLive (s := s.writeReg (regOfInt i) w) hs _
  · exact sound_clearLive (s := s.writePair hi lo) hs _

/-! ### Kinds, operands and parameters -/

/-- Storing a slot and a `live` bit in an operation keeps every kind and operand (R31). -/
theorem State.setSlot_instrs (v : Slot) (l : Bool) (ho : (s.insts.map Operation.instr)[h]? = some o.instr) :
    (s.setSlot h o v l).insts.map Operation.instr = s.insts.map Operation.instr := by
  obtain ⟨hlt, hget⟩ := List.getElem?_eq_some_iff.1 ho
  rw [State.setSlot_insts, List.map_set, ← hget, List.set_getElem_self]

/-- So does the bookkeeping of an execute and of a reverse, around an update that keeps the operations. -/
theorem clearLive_setSlot_instrs (w : Written) (v : Slot) (l : Bool) (hu : u.insts = s.insts) (ho : s.insts[h]? = some o) :
    ((u.clearLive w).setSlot h o v l).insts.map Operation.instr = s.insts.map Operation.instr := by
  rw [State.setSlot_instrs, State.clearLive_instrs, hu]
  rw [State.clearLive_instrs, hu, List.getElem?_map, ho, Option.map_some]

/-- Nothing appended is at most one operation appended. -/
theorem appends_at_most_one_of_eq {l l' : List Instr} (hl : l' = l) : ∃ new, l' = l ++ new ∧ new.length ≤ 1 :=
  ⟨[], by rw [hl, List.append_nil], Nat.zero_le 1⟩

/-- A command that completes keeps the parameters and all kinds and operands, and appends at most one operation (R31, R81). -/
theorem perform_instrs (hp : s.perform c = .next t) :
    t.params = s.params ∧ ∃ new, t.insts.map Operation.instr = s.insts.map Operation.instr ++ new ∧ new.length ≤ 1 := by
  rcases perform_next_cases hp with ⟨i, -, -, rfl⟩ | ⟨h, o, u, -, ho, he, rfl⟩ | ⟨h, o, -, ho, -, -, rfl⟩ | ⟨w, -, rfl⟩ |
    ⟨i, w, -, -, rfl⟩ | ⟨hi, lo, -, rfl⟩
  · exact ⟨rfl, [i], by simp, le_rfl⟩
  · have hu := exec_surroundings he
    exact ⟨hu.params, appends_at_most_one_of_eq (clearLive_setSlot_instrs _ _ _ hu.insts ho)⟩
  · have hv := s.restore_surroundings o.slot
    exact ⟨hv.params, appends_at_most_one_of_eq (clearLive_setSlot_instrs _ _ _ hv.insts ho)⟩
  · exact ⟨rfl, appends_at_most_one_of_eq rfl⟩
  · exact ⟨rfl, appends_at_most_one_of_eq (State.clearLive_instrs _ _)⟩
  · exact ⟨rfl, appends_at_most_one_of_eq (State.clearLive_instrs _ _)⟩

/-! ### The status -/

/-- A command that completes leaves the status (R33). -/
theorem perform_status (hp : s.perform c = .next t) : t.status = s.status := by
  rcases perform_next_cases hp with ⟨i, -, -, rfl⟩ | ⟨h, o, u, -, -, he, rfl⟩ | ⟨h, o, -, -, -, -, rfl⟩ | ⟨w, -, rfl⟩ |
    ⟨i, w, -, -, rfl⟩ | ⟨hi, lo, -, rfl⟩
  · rfl
  · exact (exec_surroundings he).status
  · exact (s.restore_surroundings o.slot).status
  · rfl
  · rfl
  · rfl

end Sys2Proof.Machine

open Sys2Proof Sys2Proof.Machine

/-- Settles O7: a command that completes keeps soundness by `perform_sound`, and one that does not leaves the operations alone. -/
theorem everyStepKeepsInstancesSound : Obligations.EveryStepKeepsInstancesSound := by
  intro s t hsound hs
  obtain ⟨-, ⟨-, rfl⟩ | ⟨c, rest, -, hp | ⟨f, -, rfl⟩ | ⟨r, -, rfl⟩⟩⟩ := step_cases hs
  · exact hsound
  · exact perform_sound (s := s.take rest) hsound hp
  · exact hsound
  · exact hsound

/-- Settles O5: a command that completes is `perform_instrs`, and one that does not changes no operation. -/
theorem kindsOperandsAndParametersNeverChange : Obligations.KindsOperandsAndParametersNeverChange := by
  intro s t hs
  obtain ⟨-, ⟨-, rfl⟩ | ⟨c, rest, -, hp | ⟨f, -, rfl⟩ | ⟨r, -, rfl⟩⟩⟩ := step_cases hs
  · exact ⟨rfl, appends_at_most_one_of_eq rfl⟩
  · exact perform_instrs (s := s.take rest) hp
  · exact ⟨rfl, appends_at_most_one_of_eq rfl⟩
  · exact ⟨rfl, appends_at_most_one_of_eq rfl⟩

/-- Settles O8: a created block has no operation. -/
theorem createdInstancesAreSound : Obligations.CreatedInstancesAreSound :=
  ⟨fun _ _ => nofun, nofun⟩

/-- Settles O54: an idle step and a completed command leave the block running, so the command was turned away. -/
theorem everyStopWritesNothingButStatus : Obligations.EveryStopWritesNothingButStatus := by
  intro s t hs ht
  obtain ⟨hr, ⟨-, rfl⟩ | ⟨c, rest, hc, hp | ⟨f, -, rfl⟩ | ⟨r, -, rfl⟩⟩⟩ := step_cases hs
  · exact absurd hr ht
  · exact absurd ((perform_status hp).trans hr) ht
  · exact ⟨c, rest, hc, hr, rfl⟩
  · exact ⟨c, rest, hc, hr, rfl⟩

/-- Settles O58: the step with no command to take. -/
theorem nothingChangesWithoutACommand : Obligations.NothingChangesWithoutACommand :=
  fun _ hr hc => step_idle hr hc
end

section
/-! PROOFS. The encoding family (30_encoding.md), the two round trips: a word that fits a row is fixed by the row and its operand fields, so
decode and encode are each other's inverse (R55, R56, R60); and the facts about the opcode map, its fields and single words. -/

namespace Sys2Proof.Laws.EncodingRow

/-- The law of PerInstr, for every instruction: its word fits the row of its kind and gives its operands back. -/
theorem encode_fits_own_row : ∀ i, Statement i
  | .add .. => add ..
  | .addi .. => addi ..
  | .addiu .. => addiu ..
  | .addu .. => addu ..
  | .clo .. => clo ..
  | .clz .. => clz ..
  | .div .. => div ..
  | .divu .. => divu ..
  | .madd .. => madd ..
  | .maddu .. => maddu ..
  | .msub .. => msub ..
  | .msubu .. => msubu ..
  | .mul .. => mul ..
  | .mult .. => mult ..
  | .multu .. => multu ..
  | .seb .. => seb ..
  | .seh .. => seh ..
  | .sub .. => sub ..
  | .subu .. => subu ..
  | .sll .. => sll ..
  | .srl .. => srl ..
  | .sra .. => sra ..
  | .rotr .. => rotr ..

end Sys2Proof.Laws.EncodingRow

namespace Sys2Proof

variable {w w' : Word} {r : OpcodeRow} {k : Kind}

/-! ### The operand bits of a word -/

/-- The bits of the field of `len` bits from bit `lo` upward. -/
def fieldMask (lo len : Nat) : Word := (BitVec.allOnes len).setWidth 32 <<< lo

/-- The bits that hold the operands of a kind (R51, R52, R55, R56); CLO and CLZ repeat `rd` in the `rt` field. -/
def Kind.operandMask : Kind → Word
  | .add | .addu | .sub | .subu | .mul | .clo | .clz => fieldMask 21 5 ||| (fieldMask 16 5 ||| fieldMask 11 5)
  | .addi | .addiu => fieldMask 21 5 ||| (fieldMask 16 5 ||| fieldMask 0 16)
  | .seb | .seh => fieldMask 16 5 ||| fieldMask 11 5
  | .mult | .multu | .madd | .maddu | .msub | .msubu | .div | .divu => fieldMask 21 5 ||| fieldMask 16 5
  | .sll | .srl | .sra | .rotr => fieldMask 16 5 ||| (fieldMask 11 5 ||| fieldMask 6 5)

/-- Every bit of a word is fixed by its row or holds an operand, so none is ignored. -/
theorem opcodeRows_mask_or_operandMask : ∀ r ∈ opcodeRows, r.mask ||| r.kind.operandMask = BitVec.allOnes 32 := by decide

/-- Words that agree on a field agree on its bits. -/
theorem and_fieldMask_eq {lo len : Nat} (hf : w.extractLsb' lo len = w'.extractLsb' lo len) :
    w &&& fieldMask lo len = w' &&& fieldMask lo len := by
  apply BitVec.eq_of_getLsbD_eq
  intro i hi
  by_cases hin : lo ≤ i ∧ i - lo < len
  · have hbit := congrArg (·.getLsbD (i - lo)) hf
    simp only [BitVec.getLsbD_extractLsb', hin.2, decide_true, Bool.true_and, Nat.add_sub_cancel' hin.1] at hbit
    rw [BitVec.getLsbD_and, BitVec.getLsbD_and, hbit]
  · have hout : (fieldMask lo len).getLsbD i = false := by
      simp only [fieldMask, BitVec.getLsbD_shiftLeft, BitVec.getLsbD_setWidth, BitVec.getLsbD_allOnes, Bool.and_eq_false_imp,
        Bool.and_eq_true, decide_eq_true_eq, Bool.not_eq_true', decide_eq_false_iff_not, not_lt, and_imp]
      omega
    rw [BitVec.getLsbD_and, BitVec.getLsbD_and, hout, Bool.and_false, Bool.and_false]

theorem and_rsMask_eq (hf : rsField w = rsField w') : w &&& fieldMask 21 5 = w' &&& fieldMask 21 5 :=
  and_fieldMask_eq (BitVec.eq_of_toNat_eq (congrArg Fin.val hf))

theorem and_rtMask_eq (hf : rtField w = rtField w') : w &&& fieldMask 16 5 = w' &&& fieldMask 16 5 :=
  and_fieldMask_eq (BitVec.eq_of_toNat_eq (congrArg Fin.val hf))

theorem and_rdMask_eq (hf : rdField w = rdField w') : w &&& fieldMask 11 5 = w' &&& fieldMask 11 5 :=
  and_fieldMask_eq (BitVec.eq_of_toNat_eq (congrArg Fin.val hf))

theorem and_saMask_eq (hf : saField w = saField w') : w &&& fieldMask 6 5 = w' &&& fieldMask 6 5 :=
  and_fieldMask_eq (BitVec.eq_of_toNat_eq (congrArg Fin.val hf))

theorem and_immMask_eq (hf : imm16Field w = imm16Field w') : w &&& fieldMask 0 16 = w' &&& fieldMask 0 16 :=
  and_fieldMask_eq hf

theorem and_or_eq {a b : Word} (ha : w &&& a = w' &&& a) (hb : w &&& b = w' &&& b) : w &&& (a ||| b) = w' &&& (a ||| b) := by
  rw [BitVec.and_or_distrib_left, BitVec.and_or_distrib_left, ha, hb]

/-- Words with the same operands have the same operand bits. -/
theorem and_operandMask_eq (hi : instrOfFields w k = instrOfFields w' k) (hrt : k.requiresRtEqRd = true → rtField w = rdField w)
    (hrt' : k.requiresRtEqRd = true → rtField w' = rdField w') : w &&& k.operandMask = w' &&& k.operandMask := by
  cases k with
  | add | addu | sub | subu | mul =>
    injection hi with hrs hrt hrd
    exact and_or_eq (and_rsMask_eq hrs) (and_or_eq (and_rtMask_eq hrt) (and_rdMask_eq hrd))
  | clo | clz =>
    injection hi with hrs hrd
    have hrt : rtField w = rtField w' := by rw [hrt rfl, hrt' rfl, hrd]
    exact and_or_eq (and_rsMask_eq hrs) (and_or_eq (and_rtMask_eq hrt) (and_rdMask_eq hrd))
  | addi | addiu =>
    injection hi with hrs himm hrt
    exact and_or_eq (and_rsMask_eq hrs) (and_or_eq (and_rtMask_eq hrt) (and_immMask_eq himm))
  | seb | seh =>
    injection hi with hrt hrd
    exact and_or_eq (and_rtMask_eq hrt) (and_rdMask_eq hrd)
  | mult | multu | madd | maddu | msub | msubu | div | divu =>
    injection hi with hrs hrt
    exact and_or_eq (and_rsMask_eq hrs) (and_rtMask_eq hrt)
  | sll | srl | sra | rotr =>
    injection hi with hrt hrd hsa
    exact and_or_eq (and_rtMask_eq hrt) (and_or_eq (and_rdMask_eq hrd) (and_saMask_eq hsa))

/-- A row and its operands fix the word (R55, R56). -/
theorem eq_of_fits_of_instrOfFields_eq (hr : r ∈ opcodeRows) (hw : r.fits w = true) (hw' : r.fits w' = true)
    (hi : instrOfFields w r.kind = instrOfFields w' r.kind) (hrt : r.kind.requiresRtEqRd = true → rtField w = rdField w)
    (hrt' : r.kind.requiresRtEqRd = true → rtField w' = rdField w') : w = w' := by
  rw [OpcodeRow.fits_iff] at hw hw'
  have hall := and_or_eq (hw.trans hw'.symm) (and_operandMask_eq hi hrt hrt')
  rwa [opcodeRows_mask_or_operandMask r hr, BitVec.and_allOnes, BitVec.and_allOnes] at hall

/-- The fields of a word of a row encode to that word. -/
theorem encode_instrOfFields (hr : r ∈ opcodeRows) (hw : r.fits w = true)
    (hrt : r.kind.requiresRtEqRd = true → rtField w = rdField w) : encode (instrOfFields w r.kind) = w := by
  obtain ⟨q, hq, hkind, hfits, hfields, hrt'⟩ := Laws.EncodingRow.encode_fits_own_row (instrOfFields w r.kind)
  rw [instrOfFields_kind] at hkind hfields hrt'
  obtain rfl := opcodeRows_kind_inj q hq r hr hkind
  exact eq_of_fits_of_instrOfFields_eq hr hfits hw hfields hrt' hrt

end Sys2Proof

open Sys2Proof Sys2Proof.Machine

/-- Settles O13: the word fits the row of its kind, which decides the decoder. -/
theorem decodeOfEncodeIsIdentity : Obligations.DecodeOfEncodeIsIdentity := by
  intro P i hi
  obtain ⟨r, hr, hkind, hfits, hfields, hrt⟩ := Laws.EncodingRow.encode_fits_own_row i
  rw [← hkind] at hfields hrt
  have ha : P.admits r.kind = true := hkind ▸ hi
  rw [decode_of_fits hr ha hfits hrt, hfields]

/-- Settles O14: the word and the encoding of its fields fit one row with the same operands, so they are one word. -/
theorem encodeOfDecodeIsTheWord : Obligations.EncodeOfDecodeIsTheWord := by
  intro P w i hd
  obtain ⟨r, hr, -, hw, hrt, rfl⟩ := decode_eq_instr hd
  exact ⟨encode_instrOfFields hr hw hrt, wellFormed_of_decode hd⟩

/-- Settles O10: the rows are read off, and two rows that a word fits are one by `fits_unique`. -/
theorem atMostOneRowMatchesAnyWord : Obligations.AtMostOneRowMatchesAnyWord :=
  ⟨rfl, fun w r q hr hq hrw hqw => fits_unique hr hq ((r.fits_iff w).2 hrw) ((q.fits_iff w).2 hqw)⟩

/-- Settles O9: the field is the low 16 bits, and its pattern keeps a signed value in range, as its sign extension does. -/
theorem immediateFieldKeepsSignedValue : Obligations.ImmediateFieldKeepsSignedValue := by
  refine ⟨fun n hlo hhi => toInt_wrap16_of_inRange (immediateInRange_iff.2 ⟨hlo, hhi⟩), fun imm16 => ?_, fun w i hi => ?_⟩
  · exact ⟨BitVec.toInt_signExtend_of_le (by decide), BitVec.le_toInt imm16, Int.le_sub_one_of_lt BitVec.toInt_lt⟩
  · simp [imm16Field, hi]

/-- Settles O12: the zero word fits SLL's row, which is in force or not as the parameter says. -/
theorem zeroWordIsSllOnlyWithShifts : Obligations.ZeroWordIsSllOnlyWithShifts := by
  intro P
  have hr : opcodeRows[19] ∈ opcodeRows := by simp
  by_cases hshift : P.extShift = true
  · rw [if_pos hshift]
    exact decode_of_fits hr hshift (by decide) nofun
  · rw [if_neg hshift]
    exact decode_of_selects hr (by decide) (Bool.eq_false_of_not_eq_true hshift)

/-- Settles O15: the decoder run on each of the eleven words. -/
theorem vectorWordsDecodeAsTheSpecSays : Obligations.VectorWordsDecodeAsTheSpecSays := by
  unfold Obligations.VectorWordsDecodeAsTheSpecSays
  decide
end

section
/-! PROOFS. What an instruction rule leaves unchanged (10_state.md R22), and the runs of two and three commands: decode then execute
(40_operation_contract.md R81, R82), a word made next (log 7), execute then reverse (R85), and the overwritten operation (R255). -/

namespace Sys2Proof.Machine

variable {s m t u v : State} {rest : List Command} {h g : Nat} {o p : Operation} {i : Instr} {w : Word}

/-! ### The frame of an instruction rule (R22) -/

/-- A rule that completes writes no general-purpose register but its destination, and HI and LO only where they are its destination set. -/
theorem exec_frame (he : exec i s = .next t) :
    (∀ r, destOf i ≠ .reg r → t.readReg r = s.readReg r) ∧ (destOf i ≠ .hiLo → t.HI = s.HI ∧ t.LO = s.LO) := by
  rcases exec_cases i s with ⟨d, w, hd, hx⟩ | ⟨hi, lo, hd, hx⟩ | ⟨d, S, -, -, -, hx⟩ | ⟨_, _, -, -, hx⟩ | ⟨_, _, -, -, -, hx⟩ <;>
    cases hx.symm.trans he
  · exact ⟨fun r hr => s.readReg_writeReg_of_ne w fun e => hr (e ▸ hd), fun _ => ⟨rfl, rfl⟩⟩
  · exact ⟨fun _ _ => rfl, fun hne => absurd hd hne⟩
  · exact ⟨fun _ _ => rfl, fun _ => ⟨rfl, rfl⟩⟩

/-! ### The execute of a handle, seen from another state with the same registers (R89) -/

theorem SameRegisters.take (hs : SameRegisters s m) (rest : List Command) : SameRegisters s (m.take rest) :=
  ⟨hs.regs, hs.hi, hs.lo⟩

/-- The next command of `m` executes an operation of `i`, and `m` has the registers, parameters and trap record of `s`. -/
structure ExecutesNext (s m : State) (i : Instr) (h : Nat) (later : List Command) : Prop where
  running : m.status = .running
  command : m.commands = .execute h :: later
  operation : ∃ o, m.insts[h]? = some o ∧ o.instr = i
  registers : SameRegisters s m
  params : m.params = s.params
  ovfCount : m.ovfCount = s.ovfCount

/-- Where the rule completes at `s`, the step of `m` completes with its registers and its trap record. -/
theorem ExecutesNext.step_of_next {later : List Command} (hm : ExecutesNext s m i h later) (he : exec i s = .next u) :
    ∃ t, step m = .next t ∧ t.status = .running ∧ SameRegisters u t ∧ t.ovfCount = u.ovfCount ∧ t.commands = later := by
  obtain ⟨hr, hc, ⟨o, ho, rfl⟩, hregs, hparams, hcount⟩ := hm
  obtain ⟨u', hu', hsame, hsignals⟩ :=
    (executeDependsOnRegistersAndParametersOnly o.instr s (m.take later) (hregs.take later) hparams).2 u he
  obtain ⟨-, hstatus, -, hcommands⟩ := exec_surroundings hu'
  refine ⟨_, step_of_perform_next hr hc (execute_of_next ho hu'), hstatus.trans hr, ⟨hsame.regs, hsame.hi, hsame.lo⟩, ?_, hcommands⟩
  simp only [State.take_ovfCount, hcount] at hsignals
  exact Nat.add_right_cancel hsignals

/-- Where it faults at `s`, the step of `m` faults with it. -/
theorem ExecutesNext.step_of_fault {later : List Command} {f : Fault} (hm : ExecutesNext s m i h later) (he : exec i s = .fault f) :
    ∃ t, step m = .next t ∧ TurnedAway m later (.faulted f) t := by
  obtain ⟨hr, hc, ⟨o, ho, rfl⟩, hregs, hparams, -⟩ := hm
  have hf : exec o.instr (m.take later) = .fault f :=
    (executeDependsOnRegistersAndParametersOnly o.instr s (m.take later) (hregs.take later) hparams).1 f he
  exact step_of_perform_fault hr hc (execute_of_fault ho hf)

theorem decodeWord_of_instr (hw : decode s.params w = .instr i) : s.decodeWord w = .next (s.addOperation i) := by
  simp only [State.decodeWord, hw]

theorem State.addOperation_getElem?_length (s : State) (i : Instr) :
    (s.addOperation i).insts[s.insts.length]? = some { instr := i, slot := .empty, live := false } := by
  simp

/-! ### A word made next (log 7) -/

theorem tableWord_toNat (w : Word) : tableWord 32 w.toNat = w := by
  rw [tableWord, Nat.mod_eq_of_lt w.isLt, BitVec.ofNat_toNat, BitVec.setWidth_eq]

/-- The entry, for a word that decodes once its extension is on: its operation constructed, and the execute of it issued. -/
theorem withFetchWord_of_instr (hw : decode (s.params.admitting w) w = .instr i) : s.withFetchWord 32 w.toNat =
    { s with params := s.params.admitting w, insts := s.insts ++ [{ instr := i, slot := .empty, live := false }],
             commands := .execute s.insts.length :: s.commands } := by
  simp only [State.withFetchWord, State.loadTableWord, tableWord_toNat, hw]

theorem withFetchWord_executesNext (hr : s.status = .running) (hw : decode (s.params.admitting w) w = .instr i) :
    ExecutesNext { s with params := s.params.admitting w } (s.withFetchWord 32 w.toNat) i s.insts.length s.commands := by
  rw [withFetchWord_of_instr hw]
  exact ⟨hr, rfl, ⟨_, s.addOperation_getElem?_length i, rfl⟩, ⟨fun _ => rfl, rfl, rfl⟩, rfl, rfl⟩

/-! ### Execute then reverse (R85, R255) -/

/-- Restoring the prior value of a destination set undoes what the rule wrote (R83, R84). -/
theorem restore_priorValue (he : exec i s = .next u) (hv : SameRegisters u v) :
    SameRegisters s (v.restore (s.priorValue (destOf i))) := by
  obtain ⟨hregs, hpair⟩ := exec_frame he
  cases hd : destOf i with
  | reg d =>
    obtain ⟨hhi, hlo⟩ := hpair (by simp [hd])
    refine ⟨fun r => ?_, hv.hi.trans hhi, hv.lo.trans hlo⟩
    by_cases hr : r = d
    · subst hr
      exact v.readReg_writeReg_self r _
    · exact (v.readReg_writeReg_of_ne _ hr).trans ((hv.regs r).trans (hregs r (by simp [hd, Ne.symm hr])))
  | hiLo => exact ⟨fun r => (hv.regs r).trans (hregs r (by simp [hd])), rfl, rfl⟩

/-- The reverse that follows an execute at once completes: the registers are those from before the execute, and no other operation with
that destination set is live (R32, R85). -/
theorem reverse_commitExecute (ho : s.insts[h]? = some o) (he : exec o.instr s = .next u) (rest : List Command) :
    ∃ v, ((s.commitExecute u h o).take rest).reverse h = .next v ∧ v.status = u.status ∧ v.commands = rest ∧
      SameRegisters s v ∧ v.ovfCount = u.ovfCount ∧
      ∀ g p, g ≠ h → s.insts[g]? = some p → destOf p.instr = destOf o.instr → ∃ p', v.insts[g]? = some p' ∧ p'.live = false := by
  have hinsts := (exec_surroundings he).insts
  have hself := commitExecute_getElem?_self hinsts ho
  have hne := s.priorValue_ne_empty (destOf o.instr)
  have hfits := s.priorValue_fits (destOf o.instr)
  obtain ⟨hregs, hhi, hlo⟩ := restore_priorValue he (v := (s.commitExecute u h o).take rest) ⟨fun _ => rfl, rfl, rfl⟩
  obtain ⟨-, hstatus, -, hcommands⟩ := ((s.commitExecute u h o).take rest).restore_surroundings (s.priorValue (destOf o.instr))
  refine ⟨_, reverse_of_live hself rfl hne, hstatus, hcommands, ⟨hregs, hhi, hlo⟩, State.restore_ovfCount _ _,
    fun g p hg hp hdest => ?_⟩
  exact ⟨_, reversed_getElem?_of_ne hne hfits hg (commitExecute_getElem?_of_ne hinsts hg hp), if_pos hdest⟩

/-- The same for the two steps of a driver who issues the execute and the reverse. -/
theorem step_reverse_of_step_execute (hc : s.commands = .execute h :: .reverse h :: rest) (hs : step s = .next t)
    (ht : t.status = .running) (ho : s.insts[h]? = some o) :
    ∃ v, step t = .next v ∧ v.status = .running ∧ v.commands = rest ∧ SameRegisters s v ∧ v.ovfCount = t.ovfCount ∧
      ∀ g p, g ≠ h → s.insts[g]? = some p → destOf p.instr = destOf o.instr → ∃ p', v.insts[g]? = some p' ∧ p'.live = false := by
  obtain ⟨-, o', u, ho', he, rfl⟩ := step_execute_cases hc hs ht
  cases ho.symm.trans ho'
  obtain ⟨v, hv, hstatus, hcommands, hregs, hcount, hlive⟩ := reverse_commitExecute (s := s.take (.reverse h :: rest)) ho he rest
  exact ⟨v, step_of_perform_next ht (exec_surroundings he).commands hv, hstatus.trans ht, hcommands,
    ⟨hregs.regs, hregs.hi, hregs.lo⟩, hcount, hlive⟩

end Sys2Proof.Machine

open Sys2Proof Sys2Proof.Machine

/-- Settles O3: the frame of the registers is `exec_frame`, and the rest is `exec_surroundings`. -/
theorem instructionsWriteOnlyTheirDestination : Obligations.InstructionsWriteOnlyTheirDestination := by
  intro i s t he
  obtain ⟨hregs, hpair⟩ := exec_frame he
  exact ⟨hregs, hpair, exec_surroundings he⟩

/-- Settles O18: the decode appends the fresh operation, and the execute of its handle starts from the registers before the two steps. -/
theorem decodeThenExecuteRunsTheWord : Obligations.DecodeThenExecuteRunsTheWord := by
  intro s w i rest hr hc hw
  refine ⟨_, step_of_perform_next hr hc (decodeWord_of_instr (s := s.take rest) hw), rfl, fun later hrest => ?_⟩
  have hm : ExecutesNext s ((s.take rest).addOperation i) i s.insts.length later :=
    ⟨hr, hrest, ⟨_, (s.take rest).addOperation_getElem?_length i, rfl⟩, ⟨fun _ => rfl, rfl, rfl⟩, rfl, rfl⟩
  exact ⟨fun u he => hm.step_of_next he, fun f he => hm.step_of_fault he⟩

/-- Settles O19: the entry leaves the registers, and its next command executes the word's operation. -/
theorem wordMadeNextIsRunNext : Obligations.WordMadeNextIsRunNext := by
  intro s w i hr hw
  have hm := withFetchWord_executesNext hr hw
  refine ⟨fun u he => ?_, fun f he => ?_⟩
  · obtain ⟨t, hs, ht, hregs, hcount, -⟩ := hm.step_of_next he
    exact ⟨t, hs, ht, hregs, hcount⟩
  · obtain ⟨t, hs, rfl⟩ := hm.step_of_fault he
    exact ⟨_, hs, rfl, hm.registers.regs, hm.registers.hi, hm.registers.lo⟩

/-- Settles O21, from `step_reverse_of_step_execute`. -/
theorem executeThenReverseRestoresRegisters : Obligations.ExecuteThenReverseRestoresRegisters := by
  intro s t h rest hc hs ht
  obtain ⟨-, o, -, ho, -⟩ := step_execute_cases hc hs ht
  obtain ⟨u, hu, hstatus, -, hregs, hcount, -⟩ := step_reverse_of_step_execute hc hs ht ho
  exact ⟨u, hu, hstatus, hregs, hcount⟩

/-- Settles O59: the overwriter's execute and reverse leave the first operation not live, so its reverse faults and writes no register. -/
theorem overwrittenInstanceCannotBeReversed : Obligations.OverwrittenInstanceCannotBeReversed := by
  intro s t h g p o rest hc hg hp ho hdest hs ht
  obtain ⟨u, hu, hstatus, hcommands, hregs, -, hlive⟩ := step_reverse_of_step_execute hc hs ht hp
  obtain ⟨o', ho', hl⟩ := hlive h o hg.symm ho hdest
  obtain ⟨v, hv, rfl⟩ := step_of_perform_fault hstatus hcommands (reverse_of_not_live (s := u.take rest) ho' hl)
  exact ⟨_, (run_succ 2 hs).trans ((run_succ 1 hu).trans (run_succ 0 hv)), rfl, hregs.regs, hregs.hi, hregs.lo⟩
end

section
/-! PROOFS. The signed overflow of a 32-bit sum in its two forms (41_add.md R99), and the register MUL does not read (43_multiply.md R140). -/

namespace Sys2Proof.Machine

variable {s : State} {rs rt rd : Reg}

/-! ### Signed overflow (R99) -/

theorem signedOverflow_add (a b : Word) : signedOverflow (a.toInt + b.toInt) = a.saddOverflow b := by
  rw [Bool.eq_iff_iff, signedOverflow_iff, BitVec.saddOverflow, Bool.or_eq_true, decide_eq_true_eq, decide_eq_true_eq]
  omega

/-- A sum overflows exactly when its words have one sign and the wrapped sum has the other. -/
theorem signedOverflow_add_iff_signs (a b : Word) : signedOverflow (a.toInt + b.toInt) = true ↔
    a.getLsbD 31 = b.getLsbD 31 ∧ (a + b).getLsbD 31 ≠ a.getLsbD 31 := by
  rw [signedOverflow_add, BitVec.saddOverflow_eq]
  simp only [BitVec.msb_eq_getLsbD_last, Bool.and_eq_true, beq_iff_eq, Bool.not_eq_true', beq_eq_false_iff_ne, ne_eq]

/-- The trapping and the wrapping sum are patterns of one residue. -/
theorem ofInt_toInt_add (a b : Word) : BitVec.ofInt 32 (a.toInt + b.toInt) = a + b := by
  rw [BitVec.ofInt_add, BitVec.ofInt_toInt, BitVec.ofInt_toInt]

/-! ### MUL without `rt` (R140) -/

/-- With the default second multiplicand the product is of `rs` and `rd`. -/
theorem exec_mul_of_rd (rs rt rd : Reg) (hp : s.params.mulSecond = .rd) : exec (.mul rs rt rd) s =
    .next (s.writeReg rd (mulKept s.params.mulWidth (wrap 32 (uint (s.readReg rs) * uint (s.readReg rd))))) := by
  rw [exec_mul, State.mulOperand_of_rd rt rd hp]

end Sys2Proof.Machine

open Sys2Proof Sys2Proof.Machine

/-- Settles O25: the first form is the definition, the second the library's sign test, and the two sums are `a + b`. -/
theorem signedOverflowIsASignChange : Obligations.SignedOverflowIsASignChange := by
  intro a b
  rw [← BitVec.add_def]
  exact ⟨signedOverflow_iff _, signedOverflow_add_iff_signs a b, fun _ => ofInt_toInt_add a b⟩

/-- Settles O35: neither multiplicand is the register that was written, so the products are one word. -/
theorem mulIgnoresRtByDefault : Obligations.MulIgnoresRtByDefault := by
  intro rs rt rd v s hp hrs hrd
  have he' := exec_mul_of_rd (s := s.writeReg rt v) rs rt rd hp
  rw [s.readReg_writeReg_of_ne v hrs.symm, s.readReg_writeReg_of_ne v hrd.symm] at he'
  refine ⟨_, _, exec_mul_of_rd rs rt rd hp, he', ?_, ?_, s.readReg_writeReg_of_ne _ hrd⟩
  · rw [State.readReg_writeReg_self, State.readReg_writeReg_self, State.writeReg_params]
  · rw [State.readReg_writeReg_of_ne _ _ hrd, State.readReg_writeReg_self]
end
